-- ==== Sys2Proof/Config.lean ====
section
/-! DEFINITION. The fixed parameters of CORE (spec/00_scope.md R5) and the type of its one open parameter, the stack
capacity (R6). There is no free value here: the spec leaves no instruction's result open. -/

namespace Sys2Proof

/-- `MEM_WORDS` (R5): the number of memory cells; the addresses are 0..32767. -/
@[simp] abbrev Config.memWords : Nat := 32768

/-- The largest Word, 2^15 - 1 (R5 `WORD_BITS`, R8). -/
@[simp] abbrev Config.maxWord : Nat := 32767

/-- The largest 16-bit cell value (R5 `CELL_BITS`, R8). -/
@[simp] abbrev Config.maxCell : Nat := 65535

/-- `REG_BASE` (R5): the operand encoding of register 0. -/
@[simp] abbrev Config.regBase : Nat := 32768

/-- `REG_LAST` (R5): the operand encoding of register 7, the last one. -/
@[simp] abbrev Config.regLast : Nat := 32775

/-- `ENTRY_PC` (R5): the pc at reset. -/
@[simp] abbrev Config.entryPc : Nat := 0

/-- `STACK_CAPACITY` (R6): unbounded, which is the document's value, or the capacity a finite implementation states.
R6 wants a finite capacity to be positive; `State.Inv` says so. -/
inductive StackCapacity where
  | unbounded
  | finite (entries : Nat)
  deriving DecidableEq, Repr

end Sys2Proof
end

