-- ==== Sys2Proof/Word.lean ====
section
/-! DEFINITION. The value types of CORE and the three classes of an operand slot (spec/00_scope.md R5, R8;
spec/30_encoding.md R74). -/

namespace Sys2Proof

/-- A Word: 15 bits, 0..32767 (R5, R8, R20). Registers, stack entries and I/O codes are Words. -/
abbrev Word := BitVec 15

/-- A Cell: one 16-bit memory location's value, 0..65535 (R5, R51). -/
abbrev Cell := BitVec 16

/-- The index of a general register, 0..7 (R20). -/
abbrev RegIndex := Fin 8

/-- What one operand slot holds, after its class is read (R74). Every 16-bit value is in exactly one class. -/
inductive Operand where
  /-- Encodings 0..32767: the value itself. -/
  | lit (w : Word)
  /-- Encodings 32768..32775: register `r`. -/
  | reg (r : RegIndex)
  /-- Encodings 32776..65535, here by their distance from 32776: no meaning in any slot. -/
  | invalid (k : Fin 32760)
  deriving DecidableEq, Repr

end Sys2Proof
end

