-- ==== Sys2Proof/Syntax.lean ====
section
/-! DEFINITION. The 22 instructions of CORE, one constructor per row of spec/opcode_table.json (spec/30_encoding.md
R73). Slots stand in their order a, b, c. The row `in` is the constructor `inp`, since `in` is a word of Lean. -/

namespace Sys2Proof

/-- An instruction with its operand slots as they were fetched. A slot may hold a class its role does not admit: the
decoder reads only slot 0 (R88), and such an instruction faults when it executes (R78). -/
inductive Instr where
  | halt
  | set (a b : Operand)
  | push (a : Operand)
  | pop (a : Operand)
  | eq (a b c : Operand)
  | gt (a b c : Operand)
  | jmp (a : Operand)
  | jt (a b : Operand)
  | jf (a b : Operand)
  | add (a b c : Operand)
  | mult (a b c : Operand)
  | mod (a b c : Operand)
  | and (a b c : Operand)
  | or (a b c : Operand)
  | not (a b : Operand)
  | rmem (a b : Operand)
  | wmem (a b : Operand)
  | call (a : Operand)
  | ret
  | out (a : Operand)
  | inp (a : Operand)
  | noop
  deriving DecidableEq, Repr

end Sys2Proof
end

