-- ==== Sys2Proof/WellFormed.lean ====
section
/-! DEFINITION. Which slots of an instruction are destinations and which are values, and when every slot holds an
encoding its role admits (spec/30_encoding.md R73, R75, R76, R83). A well-formed instruction never raises
InvalidOperand; one that is not always does. -/

namespace Sys2Proof

/-- The role of an operand slot (R73): `D` and `V` in the decoder table. -/
inductive Role where
  | dest
  | value
  deriving DecidableEq, Repr

/-- The operand slots of an instruction, in slot order, each with its role (R73). -/
def Instr.slots : Instr → List (Role × Operand)
  | .halt => []
  | .set a b => [(.dest, a), (.value, b)]
  | .push a => [(.value, a)]
  | .pop a => [(.dest, a)]
  | .eq a b c => [(.dest, a), (.value, b), (.value, c)]
  | .gt a b c => [(.dest, a), (.value, b), (.value, c)]
  | .jmp a => [(.value, a)]
  | .jt a b => [(.value, a), (.value, b)]
  | .jf a b => [(.value, a), (.value, b)]
  | .add a b c => [(.dest, a), (.value, b), (.value, c)]
  | .mult a b c => [(.dest, a), (.value, b), (.value, c)]
  | .mod a b c => [(.dest, a), (.value, b), (.value, c)]
  | .and a b c => [(.dest, a), (.value, b), (.value, c)]
  | .or a b c => [(.dest, a), (.value, b), (.value, c)]
  | .not a b => [(.dest, a), (.value, b)]
  | .rmem a b => [(.dest, a), (.value, b)]
  | .wmem a b => [(.value, a), (.value, b)]
  | .call a => [(.value, a)]
  | .ret => []
  | .out a => [(.value, a)]
  | .inp a => [(.dest, a)]
  | .noop => []

/-- A destination slot admits a register only; a value slot admits a literal or a register (R75, R76, R83). -/
def Role.admits : Role → Operand → Bool
  | .dest, .reg _ => true
  | .dest, .lit _ => false
  | .dest, .invalid _ => false
  | .value, .lit _ => true
  | .value, .reg _ => true
  | .value, .invalid _ => false

/-- Every slot holds an encoding its role admits (R83). -/
def Instr.wellFormed (i : Instr) : Bool :=
  i.slots.all fun slot => slot.1.admits slot.2

end Sys2Proof
end

