-- ==== Sys2Proof/Decode.lean ====
section
/-! DEFINITION. The decoder and the encoder of CORE (spec/30_encoding.md R70 to R74, R83, R88), and the bit helpers both
use. Decoding is total on any list of cells and rejects by name. -/

namespace Sys2Proof

/-- `zext_16` (R9): widens a Word to a Cell with bit 15 clear. -/
def zext16 (v : Word) : Cell := v.setWidth 16

/-- The low 15 bits of a cell, `v[14:0]` (R8, R84). -/
def low15 (v : Cell) : Word := v.setWidth 15

/-- The 22 opcodes, under the names of the decoder table (R73). -/
inductive Opcode where
  | halt
  | set
  | push
  | pop
  | eq
  | gt
  | jmp
  | jt
  | jf
  | add
  | mult
  | mod
  | and
  | or
  | not
  | rmem
  | wmem
  | call
  | ret
  | out
  | inp
  | noop
  deriving DecidableEq, Repr

/-- The opcode number of each row of the decoder table (R73). -/
def Opcode.number : Opcode → Nat
  | .halt => 0
  | .set => 1
  | .push => 2
  | .pop => 3
  | .eq => 4
  | .gt => 5
  | .jmp => 6
  | .jt => 7
  | .jf => 8
  | .add => 9
  | .mult => 10
  | .mod => 11
  | .and => 12
  | .or => 13
  | .not => 14
  | .rmem => 15
  | .wmem => 16
  | .call => 17
  | .ret => 18
  | .out => 19
  | .inp => 20
  | .noop => 21

/-- The row that an opcode number selects; none for 22 and above (R72). -/
def Opcode.ofNumber : Nat → Option Opcode
  | 0 => some .halt
  | 1 => some .set
  | 2 => some .push
  | 3 => some .pop
  | 4 => some .eq
  | 5 => some .gt
  | 6 => some .jmp
  | 7 => some .jt
  | 8 => some .jf
  | 9 => some .add
  | 10 => some .mult
  | 11 => some .mod
  | 12 => some .and
  | 13 => some .or
  | 14 => some .not
  | 15 => some .rmem
  | 16 => some .wmem
  | 17 => some .call
  | 18 => some .ret
  | 19 => some .out
  | 20 => some .inp
  | 21 => some .noop
  | _ => none

/-- `operandCount` of each row of the decoder table (R73). -/
def Opcode.operandCount : Opcode → Nat
  | .halt => 0
  | .set => 2
  | .push => 1
  | .pop => 1
  | .eq => 3
  | .gt => 3
  | .jmp => 1
  | .jt => 2
  | .jf => 2
  | .add => 3
  | .mult => 3
  | .mod => 3
  | .and => 3
  | .or => 3
  | .not => 2
  | .rmem => 2
  | .wmem => 2
  | .call => 1
  | .ret => 0
  | .out => 1
  | .inp => 1
  | .noop => 0

/-- The opcode word of a row as a cell. -/
def Opcode.cell (o : Opcode) : Cell := BitVec.ofNat 16 o.number

/-- Reads the class of an operand encoding (R74). -/
def decodeOperand (v : Cell) : Operand :=
  if v.toNat ≤ Config.maxWord then .lit (low15 v)
  else if v.toNat ≤ Config.regLast then .reg (Fin.ofNat 8 (v.toNat - Config.regBase))
  else .invalid (Fin.ofNat 32760 (v.toNat - (Config.regLast + 1)))

/-- The operand encoding of a slot (R74). -/
def encodeOperand : Operand → Cell
  | .lit w => zext16 w
  | .reg r => BitVec.ofNat 16 (Config.regBase + r.val)
  | .invalid k => BitVec.ofNat 16 (Config.regLast + 1 + k.val)

/-- Why a list of cells is no instruction. -/
inductive DecodeError where
  /-- There is no opcode word: the list is empty. -/
  | noOpcodeWord
  /-- The opcode word is not in 0..21 (R72). -/
  | invalidOpcode
  /-- The opcode word is one of the table's, and fewer operand words follow than its row gives it. -/
  | missingOperands
  deriving DecidableEq, Repr

/-- What decoding answers: the instruction with the cells that follow it, or why there is none. -/
abbrev Decoded := Except DecodeError (Instr × List Cell)

/-- Format F0 (R71): no operand slot. -/
def decodeF0 (i : Instr) (ws : List Cell) : Decoded := .ok (i, ws)

/-- Format F1 (R71): one operand slot. -/
def decodeF1 (f : Operand → Instr) : List Cell → Decoded
  | a :: ws => .ok (f (decodeOperand a), ws)
  | [] => .error .missingOperands

/-- Format F2 (R71): two operand slots. -/
def decodeF2 (f : Operand → Operand → Instr) : List Cell → Decoded
  | a :: b :: ws => .ok (f (decodeOperand a) (decodeOperand b), ws)
  | [_] => .error .missingOperands
  | [] => .error .missingOperands

/-- Format F3 (R71): three operand slots. -/
def decodeF3 (f : Operand → Operand → Operand → Instr) : List Cell → Decoded
  | a :: b :: c :: ws => .ok (f (decodeOperand a) (decodeOperand b) (decodeOperand c), ws)
  | [_, _] => .error .missingOperands
  | [_] => .error .missingOperands
  | [] => .error .missingOperands

/-- The rest of an instruction once its opcode is known (R71, R73). -/
def decodeOperands : Opcode → List Cell → Decoded
  | .halt => decodeF0 .halt
  | .set => decodeF2 .set
  | .push => decodeF1 .push
  | .pop => decodeF1 .pop
  | .eq => decodeF3 .eq
  | .gt => decodeF3 .gt
  | .jmp => decodeF1 .jmp
  | .jt => decodeF2 .jt
  | .jf => decodeF2 .jf
  | .add => decodeF3 .add
  | .mult => decodeF3 .mult
  | .mod => decodeF3 .mod
  | .and => decodeF3 .and
  | .or => decodeF3 .or
  | .not => decodeF2 .not
  | .rmem => decodeF2 .rmem
  | .wmem => decodeF2 .wmem
  | .call => decodeF1 .call
  | .ret => decodeF0 .ret
  | .out => decodeF1 .out
  | .inp => decodeF1 .inp
  | .noop => decodeF0 .noop

/-- Decodes the instruction at the front of a list of cells. Slot 0 alone selects it, by its raw value (R72, R88). -/
def decode : List Cell → Decoded
  | [] => .error .noOpcodeWord
  | op :: ws =>
    match Opcode.ofNumber op.toNat with
    | none => .error .invalidOpcode
    | some o => decodeOperands o ws

/-- The row of the decoder table an instruction belongs to. -/
def Instr.opcode : Instr → Opcode
  | .halt => .halt
  | .set _ _ => .set
  | .push _ => .push
  | .pop _ => .pop
  | .eq _ _ _ => .eq
  | .gt _ _ _ => .gt
  | .jmp _ => .jmp
  | .jt _ _ => .jt
  | .jf _ _ => .jf
  | .add _ _ _ => .add
  | .mult _ _ _ => .mult
  | .mod _ _ _ => .mod
  | .and _ _ _ => .and
  | .or _ _ _ => .or
  | .not _ _ => .not
  | .rmem _ _ => .rmem
  | .wmem _ _ => .wmem
  | .call _ => .call
  | .ret => .ret
  | .out _ => .out
  | .inp _ => .inp
  | .noop => .noop

/-- The encoding of an instruction: its opcode word, then its operand encodings in slot order (R70, R71). -/
def encode : Instr → List Cell
  | .halt => [Opcode.halt.cell]
  | .set a b => [Opcode.set.cell, encodeOperand a, encodeOperand b]
  | .push a => [Opcode.push.cell, encodeOperand a]
  | .pop a => [Opcode.pop.cell, encodeOperand a]
  | .eq a b c => [Opcode.eq.cell, encodeOperand a, encodeOperand b, encodeOperand c]
  | .gt a b c => [Opcode.gt.cell, encodeOperand a, encodeOperand b, encodeOperand c]
  | .jmp a => [Opcode.jmp.cell, encodeOperand a]
  | .jt a b => [Opcode.jt.cell, encodeOperand a, encodeOperand b]
  | .jf a b => [Opcode.jf.cell, encodeOperand a, encodeOperand b]
  | .add a b c => [Opcode.add.cell, encodeOperand a, encodeOperand b, encodeOperand c]
  | .mult a b c => [Opcode.mult.cell, encodeOperand a, encodeOperand b, encodeOperand c]
  | .mod a b c => [Opcode.mod.cell, encodeOperand a, encodeOperand b, encodeOperand c]
  | .and a b c => [Opcode.and.cell, encodeOperand a, encodeOperand b, encodeOperand c]
  | .or a b c => [Opcode.or.cell, encodeOperand a, encodeOperand b, encodeOperand c]
  | .not a b => [Opcode.not.cell, encodeOperand a, encodeOperand b]
  | .rmem a b => [Opcode.rmem.cell, encodeOperand a, encodeOperand b]
  | .wmem a b => [Opcode.wmem.cell, encodeOperand a, encodeOperand b]
  | .call a => [Opcode.call.cell, encodeOperand a]
  | .ret => [Opcode.ret.cell]
  | .out a => [Opcode.out.cell, encodeOperand a]
  | .inp a => [Opcode.inp.cell, encodeOperand a]
  | .noop => [Opcode.noop.cell]

/-- The length of an instruction in cells, 1 + operandCount (R79). -/
def Instr.length (i : Instr) : Nat := 1 + i.opcode.operandCount

/-- The four cells of an instruction numbered as one number: bit 0 is the least significant bit of the first cell and
every later cell counts on from the one before it; the bits from `nbits` up are read as 0. -/
def cellsOfNumber (nbits w : Nat) : List Cell :=
  let v := w % 2 ^ nbits
  [BitVec.ofNat 16 v, BitVec.ofNat 16 (v / 2 ^ 16), BitVec.ofNat 16 (v / 2 ^ 32), BitVec.ofNat 16 (v / 2 ^ 48)]

/-- The instruction the decoder reads from an instruction whose bits are `w`, numbered as spec/opcode_table.json
numbers them. -/
def decodeTableWord (nbits w : Nat) : Option Instr :=
  match decode (cellsOfNumber nbits w) with
  | .ok (i, _) => some i
  | .error _ => none

end Sys2Proof
end

