-- ==== Sys2Proof/Machine/State.lean ====
section
/-! DEFINITION. The state of one CORE as plain data, with everything spec/10_state.md R20 to R41 gives it, its reset
value (spec/70_reset_and_hazards.md R240), its invariant form for memory, and the ways a step or a host transaction can
stop. -/

namespace Sys2Proof.Machine

/-- The status register (R33). -/
inductive Status where
  | running
  | halted
  | faulted
  deriving DecidableEq, Repr

/-- The fault kinds of the spec (spec/60_exceptions.md R200). They are values of the machine's own `fault_kind` field,
not ways the model stops: taking one is a next state (R211). -/
inductive FaultKind where
  | invalidOpcode
  | invalidOperand
  | invalidAddress
  | stackUnderflow
  | divideByZero
  | inputExhausted
  | invalidWord
  | stackOverflow
  deriving DecidableEq, Repr

/-- The host's answer to an input request (R7, R191). -/
inductive InputAnswer where
  | char (w : Word)
  | endOfInput
  deriving DecidableEq, Repr

/-- Memory as (address, cell) pairs. The smallest addressable unit is the 16-bit cell (spec/20_memory.md R52), so a
pair holds one cell. An address with no pair reads as `unloadedCell`. DESIGN CHOICE (log 1): the representation. -/
abbrev Memory := List (Nat × Cell)

/-- What an unlisted address reads as: 0, the reset content of every cell (R32). -/
def unloadedCell : Cell := 0

/-- The canonical form from address `lo` up: addresses strictly rising and inside the address space, no pair equal to
what an unlisted address reads as. -/
def Memory.wfFrom (lo : Nat) : Memory → Bool
  | [] => true
  | (a, v) :: m => decide (lo ≤ a) && decide (a < Config.memWords) && decide (v ≠ unloadedCell) && Memory.wfFrom (a + 1) m

/-- The canonical form of memory, so that equal memories are equal lists. -/
def Memory.wf (m : Memory) : Bool := Memory.wfFrom 0 m

/-- The state of one CORE. The first eight fields are the tuple of R41. -/
structure State where
  /-- R33. -/
  status : Status
  /-- R34: the kind of the fault taken; none unless the status is Faulted. -/
  faultKind : Option FaultKind
  /-- R25: an integer in 0..32768; the address of the next opcode word. -/
  pc : Nat
  /-- R20: r0..r7. -/
  regs : Vector Word 8
  /-- R28: the stack `S`, its top last. -/
  stack : List Word
  /-- R31: the 32768 cells. -/
  mem : Memory
  /-- R37: the codes emitted, in emission order. -/
  output : List Word
  /-- R38: how many input codes have been consumed. -/
  inPos : Nat
  /-- R39: an `in` is held and its request is outstanding. -/
  inputWait : Bool
  /-- R38: the codes the host answers with, in order, consumed ones included: those it has ready before the run and those
  it has given to a held request. DESIGN CHOICE (log 4): the host's input stands in State. -/
  inCodes : List Word
  /-- R38: the host answers End once `inCodes` are consumed (log 4). -/
  inEnd : Bool
  /-- R6: `STACK_CAPACITY`, a parameter that no step writes. DESIGN CHOICE (log 5): it stands in State. -/
  stackCapacity : StackCapacity
  /-- R40: construction flag, read by the trace view only. -/
  traceEn : Bool
  /-- R40: construction flag, read by the dump view only. -/
  dumpEn : Bool
  deriving DecidableEq, Repr

/-- `Reset` with the debug flags and the capacity as given at construction (R240, R6). -/
def State.construct (capacity : StackCapacity) (traceEn dumpEn : Bool) : State where
  status := .running
  faultKind := none
  pc := Config.entryPc
  regs := #v[0, 0, 0, 0, 0, 0, 0, 0]
  stack := []
  mem := []
  output := []
  inPos := 0
  inputWait := false
  inCodes := []
  inEnd := false
  stackCapacity := capacity
  traceEn := traceEn
  dumpEn := dumpEn

/-- The machine right after reset (R240), with the document's unbounded stack (R6). DESIGN CHOICE (log 6): both debug
flags off, since the spec leaves them to construction. -/
def State.reset : State := State.construct .unbounded false false

/-- Ways a step of the model stops outside the spec's own faults. There are none: every fault of the spec is a next
state whose status is Faulted (R211; log 2), and every instruction has its effect. Safe: nothing raises it. -/
inductive Fault where
  deriving DecidableEq, Repr

/-- What the model refuses by name. -/
inductive Refusal where
  /-- An instruction without a meaning yet. Raised by no arm of `exec`: every instruction has its meaning. Safe. -/
  | notModelled (mnemonic : String)
  /-- Raised by the host transaction `load` for an image of more than 32768 words, which has no load (R241). Safe. -/
  | imageTooLong
  /-- Raised by the host transaction `load` for an image word outside 0..65535, which has no load (R241). Safe. -/
  | imageWordOutOfRange
  /-- Raised by the host transactions `answerChar` and `answerEnd` when no input request is outstanding: the host answers
  a request and nothing else (R7). Safe. -/
  | noInputRequest
  deriving DecidableEq, Repr

end Sys2Proof.Machine
end

