-- ==== Sys2Proof/Machine/Flags.lean ====
section
/-! DEFINITION. What stands where other machines have flags. CORE has none (spec/10_state.md R35): a comparison writes 0
or 1 into a general register, and a conditional jump tests a resolved operand for zero. -/

namespace Sys2Proof.Machine

/-- The result of a comparison as a Word: 1 or 0 (R130, R131). -/
def flagWord (b : Bool) : Word := if b then 1 else 0

/-- The test of a conditional jump: the whole 15-bit value against zero (R141, R142). -/
def isNonZero (v : Word) : Bool := decide (v ≠ 0)

end Sys2Proof.Machine
end

