-- ==== Sys2Proof/Machine/Ops.lean ====
section
/-! DEFINITION. The named operations over registers, memory, the stack, the pc and the channels, and taking a fault, the
one exceptional event of CORE (spec/10_state.md, spec/20_memory.md, spec/60_exceptions.md R211). There is no return from
a fault (R215). -/

namespace Sys2Proof.Machine

/-! ### Registers (R20, R21) -/

/-- `get(idx)` of the register file, with its index taken modulo 8 (R21). -/
def regGet (regs : Vector Word 8) (idx : Nat) : Word := regs[idx % 8]

/-- `set(idx, value)` of the register file, with its index taken modulo 8 (R21). -/
def regSet (regs : Vector Word 8) (idx : Nat) (v : Word) : Vector Word 8 := regs.set (idx % 8) v

/-- `x[i]` (R9). -/
def State.getReg (s : State) (i : RegIndex) : Word := regGet s.regs i.val

/-- `x[i] <- v` (R9). -/
def State.setReg (s : State) (i : RegIndex) (v : Word) : State := { s with regs := regSet s.regs i.val v }

/-! ### Memory (R31, R50 to R58) -/

/-- The cell at an address, whatever the address. -/
def Memory.cellAt (a : Nat) : Memory → Cell
  | [] => unloadedCell
  | (b, v) :: m => if a = b then v else Memory.cellAt a m

/-- A pair put before the first pair of a higher address. -/
def Memory.insertPair (a : Nat) (v : Cell) : Memory → Memory
  | [] => [(a, v)]
  | (b, w) :: m => if a < b then (a, v) :: (b, w) :: m else (b, w) :: Memory.insertPair a v m

/-- Memory without the pair of an address. -/
def Memory.remove (a : Nat) (m : Memory) : Memory := m.filter fun c => c.1 != a

/-- The cell at an address replaced, in canonical form: the value of an unlisted address is not listed. -/
def Memory.put (a : Nat) (v : Cell) (m : Memory) : Memory :=
  if v = unloadedCell then Memory.remove a m else Memory.insertPair a v (Memory.remove a m)

/-- Cells stored from an address up, as far as memory goes (R241; `loadProgram` of R59). -/
def storeCells (a : Nat) : List Cell → Memory → Memory
  | [], m => m
  | v :: vs, m => storeCells (a + 1) vs (if a < Config.memWords then m.put a v else m)

/-- The contents of the cell at an address (R50); for what fetch and loads may reach see `memRead`. -/
def State.cell (s : State) (a : Nat) : Cell := s.mem.cellAt a

/-- `MemRead(addr, 1)` (R9, R56): one cell, or InvalidAddress outside 0..32767. -/
def State.memRead (s : State) (a : Nat) : Except FaultKind Cell :=
  if a < Config.memWords then .ok (s.cell a) else .error .invalidAddress

/-- `MemWrite(addr, 1, zext_16(v))` (R9, R51, R56). -/
def State.memWrite (s : State) (a : Nat) (v : Word) : Except FaultKind State :=
  if a < Config.memWords then .ok { s with mem := s.mem.put a (zext16 v) } else .error .invalidAddress

/-- `readSlice(start, length)` (R57): InvalidAddress if any address it covers is outside 0..32767. -/
def State.readSlice (s : State) : Nat → Nat → Except FaultKind (List Cell)
  | _, 0 => .ok []
  | start, n + 1 => do
    let v ← s.memRead start
    let rest ← s.readSlice (start + 1) n
    pure (v :: rest)

/-- A cell value as a Word: InvalidWord above 32767 (R170, R207). -/
def wordOfCell (v : Cell) : Except FaultKind Word :=
  if v.toNat ≤ Config.maxWord then .ok (low15 v) else .error .invalidWord

/-! ### The stack engine (R28) -/

/-- `size()` of the stack engine (R28). -/
def State.stackSize (s : State) : Nat := s.stack.length

/-- `isEmpty()` of the stack engine (R28). -/
def State.stackIsEmpty (s : State) : Bool := s.stack.isEmpty

/-- A finite stack that already holds `STACK_CAPACITY` entries (R208). -/
def stackFull : StackCapacity → Nat → Bool
  | .unbounded, _ => false
  | .finite k, depth => decide (k ≤ depth)

/-- `Push(v)` with its capacity check (R28, R121, R208). -/
def State.push (s : State) (v : Word) : Except FaultKind State :=
  if stackFull s.stackCapacity s.stackSize then .error .stackOverflow
  else .ok { s with stack := s.stack ++ [v] }

/-- `Pop()`: the top and the state without it, or StackUnderflow (R28, R204). -/
def State.pop (s : State) : Except FaultKind (Word × State) :=
  match s.stack.getLast? with
  | none => .error .stackUnderflow
  | some v => .ok (v, { s with stack := s.stack.dropLast })

/-! ### The program-counter sequencer (R81) -/

/-- The default advance past an instruction of `n` cells (R81). Addresses never wrap (R82). -/
def State.advance (s : State) (n : Nat) : State := { s with pc := s.pc + n }

/-- An explicit target, a Word used as an absolute address (R81, R143). -/
def State.jump (s : State) (target : Word) : State := { s with pc := target.toNat }

/-- The return address of a `call`, or InvalidAddress where it is no Word (R180). -/
def State.returnAddress (s : State) : Except FaultKind Word :=
  if s.pc + 2 ≤ Config.maxWord then .ok (BitVec.ofNat 15 (s.pc + 2)) else .error .invalidAddress

/-! ### The channels (R37 to R39) -/

/-- `Emit(v)` (R37). -/
def State.emit (s : State) (v : Word) : State := { s with output := s.output ++ [v] }

/-- The host's answer to an input request made now, if it has one: the next code not yet consumed, or End once every
code has been consumed (R38, R191; log 4). -/
def State.inputAnswer (s : State) : Option InputAnswer :=
  match s.inCodes[s.inPos]? with
  | some w => some (.char w)
  | none => if s.inEnd then some .endOfInput else none

/-- One code consumed (R38). -/
def State.consumeInput (s : State) : State := { s with inPos := s.inPos + 1 }

/-- An input request outstanding (R39). -/
def State.holdInput (s : State) : State := { s with inputWait := true }

/-- The input wait over: the host has answered (R224). -/
def State.endInputWait (s : State) : State := { s with inputWait := false }

/-! ### Halting, and taking a fault (R110, R211) -/

/-- `status <- Halted` (R110). -/
def State.halt (s : State) : State := { s with status := .halted }

/-- The state after `raise Fault(kind)` (R211): the status and the fault kind, and nothing else. -/
def State.raised (s : State) (k : FaultKind) : State := { s with status := .faulted, faultKind := some k }

/-- Ends a step with what its checks and its effect gave. A fault commits nothing of the effect: the state it is taken in
is the one the step began in (R10, R211). -/
def settle (s : State) : Except FaultKind State → Host.Outcome State Fault Refusal
  | .ok t => .next t
  | .error k => .next (s.raised k)

end Sys2Proof.Machine
end

