-- ==== Sys2Proof/Machine/Operands.lean ====
section
/-! DEFINITION. The operand resolver (spec/30_encoding.md R74 to R78). It writes nothing. -/

namespace Sys2Proof.Machine

/-- `resolve` (R75): a literal is itself, a register encoding is that register's value, anything else is
InvalidOperand. -/
def State.resolve (s : State) : Operand → Except FaultKind Word
  | .lit w => .ok w
  | .reg r => .ok (s.getReg r)
  | .invalid _ => .error .invalidOperand

/-- `dest` (R76): a register encoding names its register, anything else is InvalidOperand. -/
def destReg : Operand → Except FaultKind RegIndex
  | .reg r => .ok r
  | .lit _ => .error .invalidOperand
  | .invalid _ => .error .invalidOperand

end Sys2Proof.Machine
end

