-- ==== Sys2Proof/Machine/Alu.lean ====
section
/-! DEFINITION. The results of the two-operand instructions, computed exactly on integers and then reduced to a Word
(spec/00_scope.md R11; spec/44_arith_logic.md R150), and the one shape those instructions share. -/

namespace Sys2Proof.Machine

/-- An exact result reduced modulo 32768 (R150). -/
def reduce (n : Nat) : Word := BitVec.ofNat 15 n

/-- `add` (R151). -/
def aluAdd (b c : Word) : Word := reduce (b.toNat + c.toNat)

/-- `mult` (R152): the exact product, then reduced. -/
def aluMult (b c : Word) : Word := reduce (b.toNat * c.toNat)

/-- `mod` (R153): the unsigned remainder; DivideByZero for the divisor 0 (R205). -/
def aluMod (b c : Word) : Except FaultKind Word :=
  if c.toNat = 0 then .error .divideByZero else .ok (reduce (b.toNat % c.toNat))

/-- `and` (R154). -/
def aluAnd (b c : Word) : Word := b &&& c

/-- `or` (R155). -/
def aluOr (b c : Word) : Word := b ||| c

/-- `not` (R156): the 15-bit complement. -/
def aluNot (b : Word) : Word := ~~~b

/-- `eq` (R130). -/
def aluEq (b c : Word) : Word := flagWord (decide (b.toNat = c.toNat))

/-- `gt` (R131): strict, unsigned. -/
def aluGt (b c : Word) : Word := flagWord (decide (b.toNat > c.toNat))

/-- An instruction `a, b, c` of format F3 that writes register a with a result of the values b and c, which its own
check may refuse (the template of R151 to R155 and R130, R131). -/
def binaryOp (f : Word → Word → Except FaultKind Word) (a b c : Operand) (s : State) :
    Host.Outcome State Fault Refusal :=
  settle s do
    let i ← destReg a
    let vb ← s.resolve b
    let vc ← s.resolve c
    let r ← f vb vc
    pure ((s.setReg i r).advance 4)

end Sys2Proof.Machine
end

