-- ==== Sys2Proof/Machine/ArithLogic.lean ====
section
/-! DEFINITION. add, mult, mod, and, or and not (spec/44_arith_logic.md). -/

namespace Sys2Proof.Machine

/-- `add a, b, c` (R151). -/
def execAdd (a b c : Operand) (s : State) : Host.Outcome State Fault Refusal :=
  binaryOp (fun vb vc => .ok (aluAdd vb vc)) a b c s

/-- `mult a, b, c` (R152). -/
def execMult (a b c : Operand) (s : State) : Host.Outcome State Fault Refusal :=
  binaryOp (fun vb vc => .ok (aluMult vb vc)) a b c s

/-- `mod a, b, c` (R153): the operand checks come before the divisor's (R210). -/
def execMod (a b c : Operand) (s : State) : Host.Outcome State Fault Refusal := binaryOp aluMod a b c s

/-- `and a, b, c` (R154). -/
def execAnd (a b c : Operand) (s : State) : Host.Outcome State Fault Refusal :=
  binaryOp (fun vb vc => .ok (aluAnd vb vc)) a b c s

/-- `or a, b, c` (R155). -/
def execOr (a b c : Operand) (s : State) : Host.Outcome State Fault Refusal :=
  binaryOp (fun vb vc => .ok (aluOr vb vc)) a b c s

/-- `not a, b` (R156). -/
def execNot (a b : Operand) (s : State) : Host.Outcome State Fault Refusal :=
  settle s do
    let i ← destReg a
    let vb ← s.resolve b
    pure ((s.setReg i (aluNot vb)).advance 3)

end Sys2Proof.Machine
end

