-- ==== Sys2Proof/Machine/CallReturn.lean ====
section
/-! DEFINITION. call and ret (spec/46_call_return.md). -/

namespace Sys2Proof.Machine

/-- `call a` (R180): the target is resolved before the push; the return address is checked before the stack (R210). -/
def execCall (a : Operand) (s : State) : Host.Outcome State Fault Refusal :=
  settle s do
    let t ← s.resolve a
    let ra ← s.returnAddress
    let u ← s.push ra
    pure (u.jump t)

/-- `ret` (R181). -/
def execRet (s : State) : Host.Outcome State Fault Refusal :=
  settle s do
    let (v, t) ← s.pop
    pure (t.jump v)

end Sys2Proof.Machine
end

