-- ==== Sys2Proof/Machine/CharIO.lean ====
section
/-! DEFINITION. out and in (spec/47_io.md). -/

namespace Sys2Proof.Machine

/-- `out a` (R190). -/
def execOut (a : Operand) (s : State) : Host.Outcome State Fault Refusal :=
  settle s do
    let v ← s.resolve a
    pure ((s.emit v).advance 2)

/-- `in a` once its destination is register `i` (R191, R39): with no answer from the host it is held, and only the
request stands out; an answer ends the wait, a code is consumed, End is the fault InputExhausted (R206, R224). -/
def inputInto (i : RegIndex) (s : State) : Host.Outcome State Fault Refusal :=
  match s.inputAnswer with
  | none => .next s.holdInput
  | some .endOfInput => settle s.endInputWait (.error .inputExhausted)
  | some (.char w) => settle s.endInputWait (.ok ((s.endInputWait.setReg i w).consumeInput.advance 2))

/-- `in a` (R191): the destination is checked before any input is requested. DESIGN CHOICE (log 4): a held `in` answers
the next state with its request outstanding, a further step leaves that state as it is, and the host's answer completes
the held step (`answerRequest`). -/
def execIn (a : Operand) (s : State) : Host.Outcome State Fault Refusal :=
  match destReg a with
  | .error k => settle s (.error k)
  | .ok i => inputInto i s

end Sys2Proof.Machine
end

