-- ==== Sys2Proof/Machine/Compare.lean ====
section
/-! DEFINITION. eq and gt (spec/42_compare.md). -/

namespace Sys2Proof.Machine

/-- `eq a, b, c` (R130). -/
def execEq (a b c : Operand) (s : State) : Host.Outcome State Fault Refusal :=
  binaryOp (fun vb vc => .ok (aluEq vb vc)) a b c s

/-- `gt a, b, c` (R131). -/
def execGt (a b c : Operand) (s : State) : Host.Outcome State Fault Refusal :=
  binaryOp (fun vb vc => .ok (aluGt vb vc)) a b c s

end Sys2Proof.Machine
end

