-- ==== Sys2Proof/Machine/Jump.lean ====
section
/-! DEFINITION. jmp, jt and jf (spec/43_jump.md). Both slots of a conditional jump are resolved on both paths (R78). -/

namespace Sys2Proof.Machine

/-- A conditional jump: to `target` if `taken` says so of the condition's value, else past its 3 cells (R141, R142). -/
def condJump (taken : Word → Bool) (cond target : Operand) (s : State) : Host.Outcome State Fault Refusal :=
  settle s do
    let c ← s.resolve cond
    let t ← s.resolve target
    pure (if taken c then s.jump t else s.advance 3)

/-- `jmp a` (R140). -/
def execJmp (a : Operand) (s : State) : Host.Outcome State Fault Refusal :=
  settle s do
    let t ← s.resolve a
    pure (s.jump t)

/-- `jt a, b` (R141): jumps if the condition is not zero. -/
def execJt (a b : Operand) (s : State) : Host.Outcome State Fault Refusal := condJump (fun c => isNonZero c) a b s

/-- `jf a, b` (R142): jumps if the condition is zero. -/
def execJf (a b : Operand) (s : State) : Host.Outcome State Fault Refusal := condJump (fun c => !isNonZero c) a b s

end Sys2Proof.Machine
end

