-- ==== Sys2Proof/Machine/MachineControl.lean ====
section
/-! DEFINITION. halt and noop (spec/40_machine_control.md). -/

namespace Sys2Proof.Machine

/-- `halt` (R110): Halted, and the default advance of 1. -/
def execHalt (s : State) : Host.Outcome State Fault Refusal := settle s (.ok (s.halt.advance 1))

/-- `noop` (R111): the default advance of 1 and nothing else. -/
def execNoop (s : State) : Host.Outcome State Fault Refusal := settle s (.ok (s.advance 1))

end Sys2Proof.Machine
end

