-- ==== Sys2Proof/Machine/MemoryAccess.lean ====
section
/-! DEFINITION. rmem and wmem (spec/45_memory_access.md). The one addressing mode is absolute through a resolved value
(R172). -/

namespace Sys2Proof.Machine

/-- `rmem a, b` (R170). -/
def execRmem (a b : Operand) (s : State) : Host.Outcome State Fault Refusal :=
  settle s do
    let i ← destReg a
    let addr ← s.resolve b
    let v ← s.memRead addr.toNat
    let w ← wordOfCell v
    pure ((s.setReg i w).advance 3)

/-- `wmem a, b` (R171): both slots are values; it never writes a register (R68). -/
def execWmem (a b : Operand) (s : State) : Host.Outcome State Fault Refusal :=
  settle s do
    let addr ← s.resolve a
    let v ← s.resolve b
    let t ← s.memWrite addr.toNat v
    pure (t.advance 3)

end Sys2Proof.Machine
end

