-- ==== Sys2Proof/Machine/RegisterStack.lean ====
section
/-! DEFINITION. set, push and pop (spec/41_register_stack.md). -/

namespace Sys2Proof.Machine

/-- `set a, b` (R120). -/
def execSet (a b : Operand) (s : State) : Host.Outcome State Fault Refusal :=
  settle s do
    let i ← destReg a
    let v ← s.resolve b
    pure ((s.setReg i v).advance 3)

/-- `push a` (R121). -/
def execPush (a : Operand) (s : State) : Host.Outcome State Fault Refusal :=
  settle s do
    let v ← s.resolve a
    let t ← s.push v
    pure (t.advance 2)

/-- `pop a` (R122): the destination is checked before the stack. -/
def execPop (a : Operand) (s : State) : Host.Outcome State Fault Refusal :=
  settle s do
    let i ← destReg a
    let (v, t) ← s.pop
    pure ((t.setReg i v).advance 2)

end Sys2Proof.Machine
end

