-- ==== Sys2Proof/Machine/Fetch.lean ====
section
/-! DEFINITION. Fetch and decode, the first half of a step (spec/30_encoding.md R80; spec/60_exceptions.md R210, checks 1
to 3). -/

namespace Sys2Proof.Machine

/-- The fault a decoding failure stands for: a bad opcode word is InvalidOpcode (R201), words past the top of memory
are InvalidAddress (R203). -/
def faultOfDecode : DecodeError → FaultKind
  | .noOpcodeWord => .invalidAddress
  | .invalidOpcode => .invalidOpcode
  | .missingOperands => .invalidAddress

/-- How many operand words follow an opcode word, or InvalidOpcode (R72, R73). -/
def operandCountOf (op : Cell) : Except FaultKind Nat :=
  match Opcode.ofNumber op.toNat with
  | none => .error .invalidOpcode
  | some o => .ok o.operandCount

/-- The instruction at `pc` (R80): the opcode word, its decoding, then its operand words. Cells are read raw (R57). -/
def State.fetchInstr (s : State) : Except FaultKind Instr := do
  let op ← s.memRead s.pc
  let n ← operandCountOf op
  let ws ← s.readSlice (s.pc + 1) n
  match decode (op :: ws) with
  | .ok (i, _) => .ok i
  | .error e => .error (faultOfDecode e)

end Sys2Proof.Machine
end

