-- ==== Sys2Proof/Machine/Step.lean ====
section
/-! DEFINITION. One step of CORE (spec/30_encoding.md R80), and how an instruction word is laid where the next step
fetches it. -/

namespace Sys2Proof.Machine

/-- `Step` (R80). While the status is not Running it changes nothing (R214). -/
def step (s : State) : Host.Outcome State Fault Refusal :=
  match s.status with
  | .running =>
    match s.fetchInstr with
    | .error k => settle s (.error k)
    | .ok i => exec i s
  | .halted => .next s
  | .faulted => .next s

/-- `s` with an instruction's cells stored from `pc` up and the status Running, which is all that a fetch needs. It
stands for a program that the host has loaded (R241; log 9). -/
def State.withFetchWord (s : State) (nbits w : Nat) : State :=
  { s with
    status := .running
    faultKind := none
    mem := storeCells s.pc (cellsOfNumber nbits w) s.mem }

end Sys2Proof.Machine
end

