-- ==== Sys2Proof/Machine/HostPort.lean ====
section
/-! DEFINITION. The host's transactions other than Step (spec/00_scope.md R7): reset, load, preset, the input answers,
and the status, request and debug views. None of them is a step of CORE. -/

namespace Sys2Proof.Machine

/-! ### Reset, load and preset (R240 to R243) -/

/-- Image words that are all in 0..65535, as cells; none if one is not (R241). -/
def cellsOfImage (words : List Nat) : Option (List Cell) :=
  if words.all (fun w => decide (w ≤ Config.maxCell)) then some (words.map (BitVec.ofNat 16)) else none

/-- `Load(words)` (R241): image word i goes into cell i. An image of more than 32768 words, or with a word outside
0..65535, has no load. -/
def load (words : List Nat) (s : State) : Host.Outcome State Fault Refusal :=
  if Config.memWords < words.length then .refused .imageTooLong
  else
    match cellsOfImage words with
    | none => .refused .imageWordOutOfRange
    | some cells => .next { s with mem := storeCells 0 cells s.mem }

/-- `Preset(i, w)` (R242). -/
def preset (i : RegIndex) (w : Word) (s : State) : State := s.setReg i w

/-- What the host does before the first Step: a reset with its parameters, a load (the empty image for none), presets
in their order (R243). `input` and `inputEnds` are the answers it has ready for the requests of the run (R38). DESIGN
CHOICE (log 4): that it may have answers ready. -/
structure Launch where
  capacity : StackCapacity
  traceEn : Bool
  dumpEn : Bool
  image : List Nat
  presets : List (RegIndex × Word)
  input : List Word
  inputEnds : Bool
  deriving DecidableEq, Repr

/-- The state before the first Step (R243). Load and Preset exist only here: a run has no such transition (R241, R242;
log 10). -/
def launch (l : Launch) : Host.Outcome State Fault Refusal :=
  load l.image (l.presets.foldl (fun s p => preset p.1 p.2 s)
    { State.construct l.capacity l.traceEn l.dumpEn with inCodes := l.input, inEnd := l.inputEnds })

/-- The words of an image given as 16-bit little-endian byte pairs: word i is byte 2i + 256 * byte 2i+1 (R53). An odd
byte at the end is no word, and such an image has none. DESIGN CHOICE (log 12): the odd byte. -/
def imageOfBytes : List (BitVec 8) → Option (List Nat)
  | [] => some []
  | [_] => none
  | lo :: hi :: rest => (imageOfBytes rest).map fun ws => (lo.toNat + 256 * hi.toNat) :: ws

/-- A decimal digit's value. -/
def digitValue (c : Char) : Option Nat := if '0' ≤ c ∧ c ≤ '9' then some (c.toNat - 48) else none

/-- The numbers of a comma-separated list, with the number read so far of the one that is being read. -/
def numbersOfText : Option Nat → List Char → Option (List Nat)
  | none, [] => none
  | some n, [] => some [n]
  | none, c :: cs => (digitValue c).bind fun d => numbersOfText (some d) cs
  | some n, c :: cs =>
    if c = ',' then (numbersOfText none cs).map fun ns => n :: ns
    else (digitValue c).bind fun d => numbersOfText (some (10 * n + d)) cs

/-- The words of an image given as comma-separated decimal numbers (R54). DESIGN CHOICE (log 12): a text with any
character other than digits and commas, or with a number missing, has no image. -/
def imageOfText (cs : List Char) : Option (List Nat) := numbersOfText none cs

/-! ### The input channel (R7, R38, R39, R191) -/

/-- The outstanding input request, as the host sees it (R39). The status is Running while it lasts (R224). -/
def State.inputRequest (s : State) : Bool := s.inputWait && decide (s.status = .running)

/-- The host's answer to the outstanding request, inside the step of the held `in` (R7): it completes that step at once,
so there is no state between the answer and what it does. Without a request there is nothing to answer. DESIGN CHOICE
(log 4): the held step is one that `step` begins and this transaction ends. -/
def answerRequest (s answered : State) : Host.Outcome State Fault Refusal :=
  if s.inputRequest then step answered else .refused .noInputRequest

/-- The host answers the outstanding request with `Char(w)` (R7, R191). -/
def answerChar (w : Word) (s : State) : Host.Outcome State Fault Refusal :=
  answerRequest s { s with inCodes := s.inCodes ++ [w] }

/-- The host answers the outstanding request with `End` (R7, R38, R191). -/
def answerEnd (s : State) : Host.Outcome State Fault Refusal := answerRequest s { s with inEnd := true }

/-! ### The status port (R33, R34, R36, R212) -/

/-- The status as the host port encodes it (R33, R36). -/
def Status.code : Status → BitVec 2
  | .running => 0
  | .halted => 1
  | .faulted => 2

/-- The code of a fault kind (R200). -/
def FaultKind.code : FaultKind → BitVec 4
  | .invalidOpcode => 1
  | .invalidOperand => 2
  | .invalidAddress => 3
  | .stackUnderflow => 4
  | .divideByZero => 5
  | .inputExhausted => 6
  | .invalidWord => 7
  | .stackOverflow => 8

/-- The `status` port (R36). -/
def State.statusPort (s : State) : BitVec 2 := s.status.code

/-- The `fault_kind` port (R34, R36): 0 for none. -/
def State.faultKindPort (s : State) : BitVec 4 :=
  match s.faultKind with
  | none => 0
  | some k => k.code

/-- The `pc` port, 16 bits (R36). -/
def State.pcPort (s : State) : BitVec 16 := BitVec.ofNat 16 s.pc

/-! ### Trace and dump (R222) -/

/-- The decoded instruction that a trace prints before it executes (R222); none with tracing off, or where no
instruction is decoded or about to run. -/
def State.traceView (s : State) : Option Instr :=
  match s.traceEn, s.status, s.fetchInstr with
  | true, .running, .ok i => some i
  | true, .running, .error _ => none
  | true, .halted, _ => none
  | true, .faulted, _ => none
  | false, _, _ => none

/-- The register dump (R222): 8 labelled values in 2 rows of 4; none with dumping off. -/
def State.registerDump (s : State) : Option (List (List (Nat × Word))) :=
  if s.dumpEn then
    some [[0, 1, 2, 3].map (fun i => (i, regGet s.regs i)), [4, 5, 6, 7].map (fun i => (i, regGet s.regs i))]
  else none

/-- The stack dump (R222): every entry, top first; none with dumping off. -/
def State.stackDump (s : State) : Option (List Word) := if s.dumpEn then some s.stack.reverse else none

end Sys2Proof.Machine
end

