-- ==== Sys2Proof/Safety.lean ====
section
/-! DEFINITION. What claims about CORE are stated in: the invariant of its state, the states a launch can reach, runs of
several steps, the ways a run ends (spec/70_reset_and_hazards.md R244), and when an operand slot is bad. -/

namespace Sys2Proof.Machine

/-- A finite `STACK_CAPACITY` is positive (R6). -/
def StackCapacity.positive : StackCapacity → Prop
  | .unbounded => True
  | .finite k => 0 < k

/-- A depth that `STACK_CAPACITY` allows (R6, R28). -/
def StackCapacity.allows : StackCapacity → Nat → Prop
  | .unbounded, _ => True
  | .finite k, depth => depth ≤ k

/-- The stack can take one more entry (R121, R180). -/
def State.hasRoom (s : State) : Prop := StackCapacity.allows s.stackCapacity (s.stack.length + 1)

/-- What holds of the state of CORE between steps. -/
structure State.Inv (s : State) : Prop where
  /-- Memory is in canonical form, so its addresses are those of R31. -/
  memCanonical : s.mem.wf = true
  /-- R25. -/
  pcInRange : s.pc ≤ 32768
  /-- R34: a fault kind is recorded exactly while the status is Faulted. -/
  faultKindIffFaulted : s.faultKind ≠ none ↔ s.status = .faulted
  /-- R6. -/
  capacityPositive : StackCapacity.positive s.stackCapacity
  /-- R6, R28. -/
  stackWithinCapacity : StackCapacity.allows s.stackCapacity s.stack.length
  /-- R38: no more codes are consumed than the host answers with. -/
  inPosInRange : s.inPos ≤ s.inCodes.length
  /-- R39, R224: while a request is outstanding the status is Running, the host has not answered, and pc addresses an
  `in` whose operand is a register. -/
  waitsAtIn : s.inputWait = true →
    s.status = .running ∧ s.inputAnswer = none ∧ ∃ r, s.fetchInstr = .ok (.inp (.reg r))

/-- A run of `n` steps of `step`, from any state. -/
def runFor (n : Nat) (s : State) : Host.Outcome State Fault Refusal := Host.Core.run Sys2Proof.core n s

/-- The two ends that CORE itself reaches (R244, ways 1 and 2). -/
def State.ended (s : State) : Prop := s.status = .halted ∨ s.status = .faulted

/-- A run of `n` steps in which no fault is taken. -/
def faultFree (n : Nat) (s : State) : Prop := ∀ m, m ≤ n → ∀ t, runFor m s = .next t → t.status ≠ .faulted

/-- The run from `s` ends Halted, in `t` (R244, way 1). -/
def haltsIn (s t : State) : Prop := t.status = .halted ∧ ∃ n, runFor n s = .next t

/-- The states of a run: a launch (R243), then steps and the host's answers to held requests, in any order. -/
inductive Reachable : State → Prop where
  | launched (l : Launch) (s : State) (hc : StackCapacity.positive l.capacity) (h : launch l = .next s) : Reachable s
  | stepped (s t : State) (hs : Reachable s) (h : step s = .next t) : Reachable t
  | answered (w : Word) (s t : State) (hs : Reachable s) (h : answerChar w s = .next t) : Reachable t
  | inputEnded (s t : State) (hs : Reachable s) (h : answerEnd s = .next t) : Reachable t

/-- A destination slot whose encoding is outside 32768..32775 (R76, R202). -/
def badDest (a : Operand) : Prop := ¬ (32768 ≤ (encodeOperand a).toNat ∧ (encodeOperand a).toNat ≤ 32775)

/-- A value slot whose encoding is 32776 or above (R75, R202). -/
def badValue (a : Operand) : Prop := 32776 ≤ (encodeOperand a).toNat

/-- A slot that holds an encoding outside its role's legal set (R202). -/
def badSlot : Role × Operand → Prop
  | (.dest, a) => badDest a
  | (.value, a) => badValue a

end Sys2Proof.Machine
end

