-- ==== Sys2Proof/Certificates/Slice0/Obligations.lean ====
section
/-! DEFINITION. The statements for the provers. Each docstring names the rule of the spec it states, and says where it
rests on a decision the spec marks as its own or on a choice of the model. -/

open Sys2Proof Sys2Proof.Machine

/-- Round trip of the encoding, for every instruction and every operand value (R70, R71, R73, R74). -/
def Obligations.DecodeOfEncodeIsTheInstruction : Prop :=
  ∀ (i : Instr) (rest : List Cell), decode (encode i ++ rest) = .ok (i, rest)

/-- The other direction of the round trip: each list of cells has one meaning (R70, R73, R74, R83). -/
def Obligations.DecodedCellsAreTheEncoding : Prop :=
  ∀ (ws : List Cell) (i : Instr) (rest : List Cell), decode ws = .ok (i, rest) → ws = encode i ++ rest

/-- R72: the opcode word is decoded from its raw 16-bit value. -/
def Obligations.OpcodeWordSelectsItsRowOrFaults : Prop :=
  (∀ (op : Cell) (ws : List Cell),
    (op.toNat ≤ 21 → ∃ o : Opcode, o.number = op.toNat ∧ decode (op :: ws) = decodeOperands o ws) ∧
    (21 < op.toNat → decode (op :: ws) = .error .invalidOpcode)) ∧
  (∀ s : State, s.status = .running → s.pc ≤ 32767 → 21 < (s.cell s.pc).toNat →
    step s = .next { s with status := .faulted, faultKind := some .invalidOpcode })

/-- R74's table. Its bit-test column is the spec's own inference, and is stated beside the ranges. -/
def Obligations.OperandSlotsFallIntoThreeClasses : Prop :=
  ∀ v : Cell,
    (v.toNat ≤ 32767 ↔ v.getLsbD 15 = false) ∧
    ((32768 ≤ v.toNat ∧ v.toNat ≤ 32775) ↔ (v.getLsbD 15 = true ∧ v.extractLsb' 3 12 = 0)) ∧
    (v.toNat ≤ 32767 → decodeOperand v = .lit (v.extractLsb' 0 15) ∧ (v.extractLsb' 0 15).toNat = v.toNat) ∧
    (32768 ≤ v.toNat → v.toNat ≤ 32775 →
      ∃ r : RegIndex, decodeOperand v = .reg r ∧ r.val = v.toNat - 32768 ∧ r.val = (v.extractLsb' 0 3).toNat) ∧
    (32776 ≤ v.toNat → ∃ k, decodeOperand v = .invalid k)

/-- R75: a value operand is read through `resolve`. -/
def Obligations.ValueOperandResolvesByEncoding : Prop :=
  ∀ (s : State) (v : Cell),
    (v.toNat ≤ 32767 → s.resolve (decodeOperand v) = .ok (BitVec.ofNat 15 v.toNat)) ∧
    (∀ i : RegIndex, v.toNat = 32768 + i.val → s.resolve (decodeOperand v) = .ok s.regs[i]) ∧
    (32776 ≤ v.toNat → s.resolve (decodeOperand v) = .error .invalidOperand) ∧
    (∀ w : Word, s.resolve (decodeOperand v) = .ok w → w.toNat ≤ 32767)

/-- R76, with the spec's decision D2 for a literal in a destination slot. -/
def Obligations.DestinationOperandNamesItsRegister : Prop :=
  ∀ v : Cell,
    (∀ i : RegIndex, v.toNat = 32768 + i.val → destReg (decodeOperand v) = .ok i) ∧
    (¬ (32768 ≤ v.toNat ∧ v.toNat ≤ 32775) → destReg (decodeOperand v) = .error .invalidOperand)

/-- A sanity check of the decoder on words written out from the spec. -/
def Obligations.WrittenOutWordsDecode : Prop :=
  decode [0] = .ok (.halt, []) ∧
  decode [1, 32768, 3] = .ok (.set (.reg 0) (.lit 3), []) ∧
  decode [5, 32770, 3, 2] = .ok (.gt (.reg 2) (.lit 3) (.lit 2), []) ∧
  decode [7, 32768, 6] = .ok (.jt (.reg 0) (.lit 6), []) ∧
  decode [9, 32768, 32769, 4] = .ok (.add (.reg 0) (.reg 1) (.lit 4), []) ∧
  decode [16, 100, 32769] = .ok (.wmem (.lit 100) (.reg 1), []) ∧
  decode [17, 32775, 9] = .ok (.call (.reg 7), [9]) ∧
  decode [20, 32771] = .ok (.inp (.reg 3), [])

/-- R80: fetch and decode, then the instruction's own effect. The per-instruction statements reach a run through this one. -/
def Obligations.StepRunsTheInstructionAtPc : Prop :=
  ∀ (s : State) (i : Instr), s.status = .running →
    (∀ (k : Nat) (h : k < (encode i).length), s.pc + k ≤ 32767 ∧ s.cell (s.pc + k) = (encode i)[k]) →
    step s = exec i s

/-- R80, R83: the encoding space is fully assigned. It is the model's choice, not the spec's words, that each outcome is a next
state: a fault by log 2 (DEDUCED from R211), a step after the end by log 3 (D12), and an `in` without an answer by log 4
(DESIGN CHOICE), where R39, R191 and V47-8 say that the step does not complete. -/
def Obligations.EveryStepAnswersANextState : Prop :=
  (∀ s : State, ∃ t, step s = .next t) ∧ (∀ (i : Instr) (s : State), ∃ t, exec i s = .next t)

/-- R214, R215 and decision D12: there is no way out of Halted or Faulted by stepping. -/
def Obligations.EndedStatesNeverChange : Prop :=
  ∀ (s : State) (n : Nat), s.ended → runFor n s = .next s

/-- R211 with decision D4. -/
def Obligations.FaultsArePrecise : Prop :=
  ∀ s t : State, s.status = .running → step s = .next t → t.status = .faulted →
    ∃ k, t.faultKind = some k ∧
      t = { s with status := .faulted, faultKind := some k, inputWait := t.inputWait } ∧
      (t.inputWait = s.inputWait ∨ (k = .inputExhausted ∧ t.inputWait = false))

/-- R201, both ways. -/
def Obligations.InvalidOpcodeArisesExactly : Prop :=
  ∀ s : State, s.status = .running →
    (step s = .next { s with status := .faulted, faultKind := some .invalidOpcode } ↔
      s.pc ≤ 32767 ∧ 22 ≤ (s.cell s.pc).toNat)

/-- R202, R78, with the spec's decisions D2 and D3. `badSlot` compares the slot's encoding with the legal range of its role. -/
def Obligations.InvalidOperandArisesExactly : Prop :=
  ∀ s : State, s.status = .running →
    (step s = .next { s with status := .faulted, faultKind := some .invalidOperand } ↔
      ∃ i, s.fetchInstr = .ok i ∧ ∃ p ∈ i.slots, badSlot p)

/-- R203, R82, with the spec's decisions D6 and D7: nothing wraps at the top of memory. -/
def Obligations.InvalidAddressArisesExactly : Prop :=
  ∀ s : State, s.status = .running →
    (step s = .next { s with status := .faulted, faultKind := some .invalidAddress } ↔
      32767 < s.pc ∨
      (s.pc ≤ 32767 ∧ ∃ o, Opcode.ofNumber (s.cell s.pc).toNat = some o ∧ 32767 < s.pc + o.operandCount) ∨
      (s.pc = 32766 ∧ ∃ a, s.fetchInstr = .ok (.call a) ∧ ¬ badValue a))

/-- R204 and R122, both ways. That a bad destination comes first is the order of R210, the spec's own decision D5. -/
def Obligations.StackUnderflowArisesExactly : Prop :=
  ∀ s : State, s.status = .running →
    (step s = .next { s with status := .faulted, faultKind := some .stackUnderflow } ↔
      s.stack = [] ∧ (s.fetchInstr = .ok .ret ∨ ∃ r, s.fetchInstr = .ok (.pop (.reg r))))

/-- R205 and R153, both ways. That a bad slot comes first is the order of R210, the spec's own decision D5. -/
def Obligations.DivideByZeroArisesExactly : Prop :=
  ∀ s : State, s.status = .running →
    (step s = .next { s with status := .faulted, faultKind := some .divideByZero } ↔
      ∃ i b c vb, s.fetchInstr = .ok (.mod (.reg i) b c) ∧ s.resolve b = .ok vb ∧ s.resolve c = .ok 0)

/-- R206, both ways. The host's answer stands in State (log 4). -/
def Obligations.InputExhaustedArisesExactly : Prop :=
  ∀ s : State, s.status = .running →
    (step s = .next { s with status := .faulted, faultKind := some .inputExhausted, inputWait := false } ↔
      ∃ i, s.fetchInstr = .ok (.inp (.reg i)) ∧ s.inCodes[s.inPos]? = none ∧ s.inEnd = true)

/-- R207 with the spec's decision D8. -/
def Obligations.InvalidWordArisesExactly : Prop :=
  ∀ s : State, s.status = .running →
    (step s = .next { s with status := .faulted, faultKind := some .invalidWord } ↔
      ∃ i b addr, s.fetchInstr = .ok (.rmem (.reg i) b) ∧ s.resolve b = .ok addr ∧ 32768 ≤ (s.cell addr.toNat).toNat)

/-- R208 with the spec's decision D9. -/
def Obligations.StackOverflowArisesExactly : Prop :=
  ∀ s : State, s.status = .running →
    (step s = .next { s with status := .faulted, faultKind := some .stackOverflow } ↔
      ¬ s.hasRoom ∧ ∃ a, ¬ badValue a ∧ (s.fetchInstr = .ok (.push a) ∨ (s.fetchInstr = .ok (.call a) ∧ s.pc + 2 ≤ 32767)))

/-- R110, with the spec's decision D11 for pc. -/
def Obligations.HaltStopsExecution : Prop :=
  encode .halt = [0] ∧ ∀ s : State, exec .halt s = .next { s with status := .halted, pc := s.pc + 1 }

/-- R111. -/
def Obligations.NoopOnlyAdvancesPc : Prop :=
  encode .noop = [21] ∧ ∀ s : State, exec .noop s = .next { s with pc := s.pc + 1 }

/-- R120, with the spec's decision D2 for a literal destination. -/
def Obligations.SetCopiesItsValue : Prop :=
  ∀ (a b : Operand) (s : State),
    encode (.set a b) = [1, encodeOperand a, encodeOperand b] ∧
    (∀ (i : RegIndex) (vb : Word), a = .reg i → s.resolve b = .ok vb →
      exec (.set a b) s = .next { s with regs := s.regs.set i.val (vb), pc := s.pc + 3 }) ∧
    (badDest a ∨ badValue b → exec (.set a b) s = .next { s with status := .faulted, faultKind := some .invalidOperand })

/-- R121, with the spec's decision D9 for a finite stack. -/
def Obligations.PushAppendsItsValue : Prop :=
  ∀ (a : Operand) (s : State),
    encode (.push a) = [2, encodeOperand a] ∧
    (∀ v : Word, s.resolve a = .ok v → s.hasRoom →
      exec (.push a) s = .next { s with stack := s.stack ++ [v], pc := s.pc + 2 }) ∧
    (∀ v : Word, s.resolve a = .ok v → ¬ s.hasRoom → exec (.push a) s = .next { s with status := .faulted, faultKind := some .stackOverflow }) ∧
    (badValue a → exec (.push a) s = .next { s with status := .faulted, faultKind := some .invalidOperand })

/-- R122. -/
def Obligations.PopMovesTheTopToItsRegister : Prop :=
  ∀ (a : Operand) (s : State),
    encode (.pop a) = [3, encodeOperand a] ∧
    (∀ (i : RegIndex) (below : List Word) (v : Word), a = .reg i → s.stack = below ++ [v] →
      exec (.pop a) s = .next { s with regs := s.regs.set i.val v, stack := below, pc := s.pc + 2 }) ∧
    (∀ i : RegIndex, a = .reg i → s.stack = [] → exec (.pop a) s = .next { s with status := .faulted, faultKind := some .stackUnderflow }) ∧
    (badDest a → exec (.pop a) s = .next { s with status := .faulted, faultKind := some .invalidOperand })

/-- R130: result, frame and fault of `eq a, b, c`. -/
def Obligations.EqWritesOneOrZero : Prop :=
  ∀ (a b c : Operand) (s : State),
    encode (.eq a b c) = [4, encodeOperand a, encodeOperand b, encodeOperand c] ∧
    (∀ (i : RegIndex) (vb vc : Word), a = .reg i → s.resolve b = .ok vb → s.resolve c = .ok vc →
      exec (.eq a b c) s = .next { s with regs := s.regs.set i.val (if vb = vc then 1 else 0), pc := s.pc + 4 }) ∧
    (badDest a ∨ badValue b ∨ badValue c → exec (.eq a b c) s = .next { s with status := .faulted, faultKind := some .invalidOperand })

/-- R131: result, frame and fault of `gt a, b, c`. -/
def Obligations.GtComparesUnsigned : Prop :=
  ∀ (a b c : Operand) (s : State),
    encode (.gt a b c) = [5, encodeOperand a, encodeOperand b, encodeOperand c] ∧
    (∀ (i : RegIndex) (vb vc : Word), a = .reg i → s.resolve b = .ok vb → s.resolve c = .ok vc →
      exec (.gt a b c) s = .next { s with regs := s.regs.set i.val (if vc.toNat < vb.toNat then 1 else 0), pc := s.pc + 4 }) ∧
    (badDest a ∨ badValue b ∨ badValue c → exec (.gt a b c) s = .next { s with status := .faulted, faultKind := some .invalidOperand })

/-- R140. -/
def Obligations.JmpGoesToItsTarget : Prop :=
  ∀ (a : Operand) (s : State),
    encode (.jmp a) = [6, encodeOperand a] ∧
    (∀ t : Word, s.resolve a = .ok t → exec (.jmp a) s = .next { s with pc := t.toNat }) ∧
    (badValue a → exec (.jmp a) s = .next { s with status := .faulted, faultKind := some .invalidOperand })

/-- R141, with the spec's decision D3. -/
def Obligations.JtJumpsIfNotZero : Prop :=
  ∀ (a b : Operand) (s : State),
    encode (.jt a b) = [7, encodeOperand a, encodeOperand b] ∧
    (∀ c t : Word, s.resolve a = .ok c → s.resolve b = .ok t →
      exec (.jt a b) s = .next { s with pc := if c ≠ 0 then t.toNat else s.pc + 3 }) ∧
    (badValue a ∨ badValue b → exec (.jt a b) s = .next { s with status := .faulted, faultKind := some .invalidOperand })

/-- R142, with the spec's decision D3. -/
def Obligations.JfJumpsIfZero : Prop :=
  ∀ (a b : Operand) (s : State),
    encode (.jf a b) = [8, encodeOperand a, encodeOperand b] ∧
    (∀ c t : Word, s.resolve a = .ok c → s.resolve b = .ok t →
      exec (.jf a b) s = .next { s with pc := if c = 0 then t.toNat else s.pc + 3 }) ∧
    (badValue a ∨ badValue b → exec (.jf a b) s = .next { s with status := .faulted, faultKind := some .invalidOperand })

/-- R151: result, frame and fault of `add a, b, c`. -/
def Obligations.AddIsModulo32768 : Prop :=
  ∀ (a b c : Operand) (s : State),
    encode (.add a b c) = [9, encodeOperand a, encodeOperand b, encodeOperand c] ∧
    (∀ (i : RegIndex) (vb vc : Word), a = .reg i → s.resolve b = .ok vb → s.resolve c = .ok vc →
      exec (.add a b c) s = .next { s with regs := s.regs.set i.val (BitVec.ofNat 15 ((vb.toNat + vc.toNat) % 32768)), pc := s.pc + 4 }) ∧
    (badDest a ∨ badValue b ∨ badValue c → exec (.add a b c) s = .next { s with status := .faulted, faultKind := some .invalidOperand })

/-- R152: result, frame and fault of `mult a, b, c`. -/
def Obligations.MultIsModulo32768 : Prop :=
  ∀ (a b c : Operand) (s : State),
    encode (.mult a b c) = [10, encodeOperand a, encodeOperand b, encodeOperand c] ∧
    (∀ (i : RegIndex) (vb vc : Word), a = .reg i → s.resolve b = .ok vb → s.resolve c = .ok vc →
      exec (.mult a b c) s = .next { s with regs := s.regs.set i.val (BitVec.ofNat 15 ((vb.toNat * vc.toNat) % 32768)), pc := s.pc + 4 }) ∧
    (badDest a ∨ badValue b ∨ badValue c → exec (.mult a b c) s = .next { s with status := .faulted, faultKind := some .invalidOperand })

/-- R153: result, frame and fault of `mod a, b, c`. -/
def Obligations.ModWritesTheRemainder : Prop :=
  ∀ (a b c : Operand) (s : State),
    encode (.mod a b c) = [11, encodeOperand a, encodeOperand b, encodeOperand c] ∧
    (∀ (i : RegIndex) (vb vc : Word), a = .reg i → s.resolve b = .ok vb → s.resolve c = .ok vc → vc ≠ 0 →
      exec (.mod a b c) s = .next { s with regs := s.regs.set i.val (BitVec.ofNat 15 (vb.toNat % vc.toNat)), pc := s.pc + 4 }) ∧
    (∀ (i : RegIndex) (vb : Word), a = .reg i → s.resolve b = .ok vb → s.resolve c = .ok 0 →
      exec (.mod a b c) s = .next { s with status := .faulted, faultKind := some .divideByZero }) ∧
    (badDest a ∨ badValue b ∨ badValue c → exec (.mod a b c) s = .next { s with status := .faulted, faultKind := some .invalidOperand })

/-- R154: result, frame and fault of `and a, b, c`. -/
def Obligations.AndIsBitwise : Prop :=
  ∀ (a b c : Operand) (s : State),
    encode (.and a b c) = [12, encodeOperand a, encodeOperand b, encodeOperand c] ∧
    (∀ (i : RegIndex) (vb vc : Word), a = .reg i → s.resolve b = .ok vb → s.resolve c = .ok vc →
      exec (.and a b c) s = .next { s with regs := s.regs.set i.val (BitVec.ofNat 15 (vb.toNat &&& vc.toNat)), pc := s.pc + 4 }) ∧
    (badDest a ∨ badValue b ∨ badValue c → exec (.and a b c) s = .next { s with status := .faulted, faultKind := some .invalidOperand })

/-- R155: result, frame and fault of `or a, b, c`. -/
def Obligations.OrIsBitwise : Prop :=
  ∀ (a b c : Operand) (s : State),
    encode (.or a b c) = [13, encodeOperand a, encodeOperand b, encodeOperand c] ∧
    (∀ (i : RegIndex) (vb vc : Word), a = .reg i → s.resolve b = .ok vb → s.resolve c = .ok vc →
      exec (.or a b c) s = .next { s with regs := s.regs.set i.val (BitVec.ofNat 15 (vb.toNat ||| vc.toNat)), pc := s.pc + 4 }) ∧
    (badDest a ∨ badValue b ∨ badValue c → exec (.or a b c) s = .next { s with status := .faulted, faultKind := some .invalidOperand })

/-- R156. -/
def Obligations.NotIsTheFifteenBitComplement : Prop :=
  ∀ (a b : Operand) (s : State),
    encode (.not a b) = [14, encodeOperand a, encodeOperand b] ∧
    (∀ (i : RegIndex) (vb : Word), a = .reg i → s.resolve b = .ok vb →
      exec (.not a b) s = .next { s with regs := s.regs.set i.val (BitVec.ofNat 15 (32767 - vb.toNat)), pc := s.pc + 3 }) ∧
    (badDest a ∨ badValue b → exec (.not a b) s = .next { s with status := .faulted, faultKind := some .invalidOperand })

/-- R170, with the spec's decision D8. -/
def Obligations.RmemReadsACell : Prop :=
  ∀ (a b : Operand) (s : State),
    encode (.rmem a b) = [15, encodeOperand a, encodeOperand b] ∧
    (∀ (i : RegIndex) (addr : Word), a = .reg i → s.resolve b = .ok addr → (s.cell addr.toNat).toNat ≤ 32767 →
      exec (.rmem a b) s =
        .next { s with regs := s.regs.set i.val (BitVec.ofNat 15 (s.cell addr.toNat).toNat), pc := s.pc + 3 }) ∧
    (∀ (i : RegIndex) (addr : Word), a = .reg i → s.resolve b = .ok addr → 32767 < (s.cell addr.toNat).toNat →
      exec (.rmem a b) s = .next { s with status := .faulted, faultKind := some .invalidWord }) ∧
    (badDest a ∨ badValue b → exec (.rmem a b) s = .next { s with status := .faulted, faultKind := some .invalidOperand })

/-- R171: both slots are values, and the address stored to is the resolved value of a. -/
def Obligations.WmemWritesOneCell : Prop :=
  ∀ (a b : Operand) (s : State),
    encode (.wmem a b) = [16, encodeOperand a, encodeOperand b] ∧
    (∀ addr v : Word, s.resolve a = .ok addr → s.resolve b = .ok v →
      ∃ t : State, exec (.wmem a b) s = .next t ∧
        t.cell addr.toNat = BitVec.ofNat 16 v.toNat ∧ (t.cell addr.toNat).getLsbD 15 = false ∧
        (∀ x : Nat, x ≠ addr.toNat → t.cell x = s.cell x) ∧
        t = { s with mem := t.mem, pc := s.pc + 3 }) ∧
    (badValue a ∨ badValue b → exec (.wmem a b) s = .next { s with status := .faulted, faultKind := some .invalidOperand })

/-- R180, with the spec's decisions D5, D7 and D9. -/
def Obligations.CallPushesTheReturnAddress : Prop :=
  ∀ (a : Operand) (s : State),
    encode (.call a) = [17, encodeOperand a] ∧
    (∀ t : Word, s.resolve a = .ok t → s.pc + 2 ≤ 32767 → s.hasRoom →
      exec (.call a) s = .next { s with stack := s.stack ++ [BitVec.ofNat 15 (s.pc + 2)], pc := t.toNat }) ∧
    (∀ t : Word, s.resolve a = .ok t → s.pc + 2 ≤ 32767 → ¬ s.hasRoom →
      exec (.call a) s = .next { s with status := .faulted, faultKind := some .stackOverflow }) ∧
    (∀ t : Word, s.resolve a = .ok t → 32767 < s.pc + 2 → exec (.call a) s = .next { s with status := .faulted, faultKind := some .invalidAddress }) ∧
    (badValue a → exec (.call a) s = .next { s with status := .faulted, faultKind := some .invalidOperand })

/-- R181. -/
def Obligations.RetPopsThePc : Prop :=
  encode .ret = [18] ∧
  ∀ s : State,
    (∀ (below : List Word) (v : Word), s.stack = below ++ [v] →
      exec .ret s = .next { s with stack := below, pc := v.toNat }) ∧
    (s.stack = [] → exec .ret s = .next { s with status := .faulted, faultKind := some .stackUnderflow })

/-- R190, with the spec's decision D14. -/
def Obligations.OutEmitsItsValue : Prop :=
  ∀ (a : Operand) (s : State),
    encode (.out a) = [19, encodeOperand a] ∧
    (∀ v : Word, s.resolve a = .ok v → exec (.out a) s = .next { s with output := s.output ++ [v], pc := s.pc + 2 }) ∧
    (badValue a → exec (.out a) s = .next { s with status := .faulted, faultKind := some .invalidOperand })

/-- R191, R39, R224, with the spec's decision D13; the model's own form of the wait is log 4. -/
def Obligations.InConsumesOneCode : Prop :=
  ∀ (a : Operand) (s : State),
    encode (.inp a) = [20, encodeOperand a] ∧
    (∀ (i : RegIndex) (w : Word), a = .reg i → s.inCodes[s.inPos]? = some w →
      exec (.inp a) s =
        .next { s with regs := s.regs.set i.val w, inPos := s.inPos + 1, inputWait := false, pc := s.pc + 2 }) ∧
    (∀ i : RegIndex, a = .reg i → s.inCodes[s.inPos]? = none → s.inEnd = true →
      exec (.inp a) s =
        .next { s with status := .faulted, faultKind := some .inputExhausted, inputWait := false }) ∧
    (∀ i : RegIndex, a = .reg i → s.inCodes[s.inPos]? = none → s.inEnd = false →
      exec (.inp a) s = .next { s with inputWait := true }) ∧
    (badDest a → exec (.inp a) s = .next { s with status := .faulted, faultKind := some .invalidOperand })

/-- R22. -/
def Obligations.OnlyTwelveInstructionsWriteRegisters : Prop :=
  (∀ (i : Instr) (s t : State) (r : RegIndex), exec i s = .next t → t.regs[r] ≠ s.regs[r] →
    i.opcode ∈ [.set, .pop, .eq, .gt, .add, .mult, .mod, .and, .or, .not, .rmem, .inp] ∧
    (Role.dest, Operand.reg r) ∈ i.slots) ∧
  (∀ i : Instr, i.opcode ∈ [.set, .pop, .eq, .gt, .add, .mult, .mod, .and, .or, .not, .rmem, .inp] ↔
    (i.slots.filter fun p => p.1 = .dest).length = 1) ∧
  (∀ (s : State) (i j : RegIndex) (w : Word),
    (preset i w s).regs[i] = w ∧ (j ≠ i → (preset i w s).regs[j] = s.regs[j]))

/-- R30. -/
def Obligations.OnlyFourInstructionsTouchTheStack : Prop :=
  ∀ (i : Instr) (s t : State), exec i s = .next t →
    (i.opcode ∈ [.push, .call] → t.stack = s.stack ∨ ∃ v, t.stack = s.stack ++ [v]) ∧
    (i.opcode ∈ [.pop, .ret] → t.stack = s.stack ∨ ∃ v, s.stack = t.stack ++ [v]) ∧
    (i.opcode ∉ [.push, .call, .pop, .ret] → t.stack = s.stack)

/-- R50, R58, R67 and conflict C2: only `wmem` writes memory during execution. -/
def Obligations.OnlyWmemWritesMemory : Prop :=
  ∀ (i : Instr) (s t : State), exec i s = .next t →
    (i.opcode ≠ .wmem → t.mem = s.mem) ∧
    (∀ a b, i = .wmem a b → ∀ x : Nat, (∀ addr, s.resolve a = .ok addr → x ≠ addr.toNat) → t.cell x = s.cell x)

/-- R192, with R37, R38, R190 and R191 for at most one code: no other instruction writes a channel, and none reads one. The
clauses on `inCodes`, `inEnd` and `inputWait` rest on the model's form of the input (log 4, DESIGN CHOICE). -/
def Obligations.OnlyOutAndInReachTheChannels : Prop :=
  ∀ (i : Instr) (s t : State), exec i s = .next t →
    (i.opcode ≠ .out → t.output = s.output) ∧
    (i.opcode = .out → t.output = s.output ∨ ∃ v, t.output = s.output ++ [v]) ∧
    (i.opcode ≠ .inp → t.inPos = s.inPos ∧ t.inputWait = s.inputWait) ∧
    (i.opcode = .inp → t.inPos = s.inPos ∨ t.inPos = s.inPos + 1) ∧
    t.inCodes = s.inCodes ∧ t.inEnd = s.inEnd ∧
    (i.opcode ∉ [.out, .inp] → ∀ (o : List Word) (p : Nat) (ic : List Word) (e w : Bool),
      exec i { s with output := o, inPos := p, inCodes := ic, inEnd := e, inputWait := w } =
        .next { t with output := o, inPos := p, inCodes := ic, inEnd := e, inputWait := w })

/-- R81, R26, R82, with the spec's decisions D6 and D11; the held `in` is R39 (log 4). -/
def Obligations.PcFollowsTheSequencer : Prop :=
  ∀ (i : Instr) (s t : State), s.status = .running → exec i s = .next t →
    (t.status = .faulted → t.pc = s.pc) ∧
    (t.status ≠ .faulted →
      (∀ a, i = .jmp a ∨ i = .call a → ∃ v, s.resolve a = .ok v ∧ t.pc = v.toNat) ∧
      (∀ a b, i = .jt a b → ∃ c v, s.resolve a = .ok c ∧ s.resolve b = .ok v ∧
        t.pc = if c ≠ 0 then v.toNat else s.pc + 3) ∧
      (∀ a b, i = .jf a b → ∃ c v, s.resolve a = .ok c ∧ s.resolve b = .ok v ∧
        t.pc = if c = 0 then v.toNat else s.pc + 3) ∧
      (i = .ret → ∃ below v, s.stack = below ++ [v] ∧ t.pc = v.toNat) ∧
      (i.opcode = .inp → t.pc = s.pc + 2 ∨ (t.pc = s.pc ∧ t.inputWait = true)) ∧
      (i.opcode ∉ [.jmp, .jt, .jf, .call, .ret, .inp] → t.pc = s.pc + i.length))

/-- R40: no rule reads `trace_en` or `dump_en`. -/
def Obligations.TraceAndDumpHaveNoEffect : Prop :=
  ∀ (s t : State) (tr du : Bool), step s = .next t →
    step { s with traceEn := tr, dumpEn := du } = .next { t with traceEn := tr, dumpEn := du }

/-- The invariant `State.Inv`: R6, R25, R28, R31, R34, R38, R39 and the model's memory form (log 1). -/
def Obligations.EveryStepKeepsTheInvariant : Prop :=
  ∀ s t : State, s.Inv → step s = .next t → t.Inv

/-- R240 meets `State.Inv`. -/
def Obligations.ResetMeetsTheInvariant : Prop :=
  State.reset.Inv ∧ ∀ (cap : StackCapacity) (tr du : Bool), StackCapacity.positive cap → (State.construct cap tr du).Inv

/-- R7, R240 to R243: the host's transactions keep `State.Inv` too. The forms of launch and answers are log 4 and 10. -/
def Obligations.EveryReachableStateMeetsTheInvariant : Prop :=
  ∀ s : State, Reachable s → s.Inv

/-- R240's table (R24 and R27 for the registers and pc), partly the spec's own decisions: D10 (stack), D13 (`inPos`), D14
(output), D17 (fault kind). The model's choices: no answer ready (log 4), an unbounded stack (log 5) and both debug flags
off (log 6) in `State.reset`. -/
def Obligations.ResetGivesTheTableValues : Prop :=
  State.reset = State.construct .unbounded false false ∧
  ∀ (cap : StackCapacity) (tr du : Bool) (s : State), s = State.construct cap tr du →
    s.pc = 0 ∧ (∀ i : RegIndex, s.regs[i] = 0) ∧
    s.status = .running ∧ s.faultKind = none ∧ s.stack = [] ∧ (∀ a, s.cell a = 0) ∧ s.output = [] ∧ s.inPos = 0 ∧
    s.inputWait = false ∧ s.inCodes = [] ∧ s.inEnd = false ∧
    s.stackCapacity = cap ∧ s.traceEn = tr ∧ s.dumpEn = du

/-- R241 to R243 and R32, with the spec's decisions D15 and D16. That a launch is one function is log 10, and that it may
have input answers ready is log 4. -/
def Obligations.LaunchPlacesTheImage : Prop :=
  ∀ l : Launch,
    (l.image.length ≤ 32768 → (∀ w ∈ l.image, w ≤ 65535) →
      ∃ s, launch l = .next s ∧
        (∀ (a : Nat) (h : a < l.image.length), (s.cell a).toNat = l.image[a]) ∧
        (∀ a : Nat, l.image.length ≤ a → a ≤ 32767 → s.cell a = 0) ∧
        s = { State.construct l.capacity l.traceEn l.dumpEn with
          inCodes := l.input
          inEnd := l.inputEnds
          mem := s.mem
          regs := l.presets.foldl (fun regs p => regs.set p.1.val p.2) (Vector.replicate 8 0) }) ∧
    (32768 < l.image.length → launch l = .refused .imageTooLong) ∧
    (l.image.length ≤ 32768 → (∃ w ∈ l.image, 65535 < w) → launch l = .refused .imageWordOutOfRange)

/-- The document's LIFO round trip (L1-5) over R121 and R122. -/
def Obligations.PopAfterPushGivesTheValueBack : Prop :=
  ∀ (s : State) (a : Operand) (v : Word) (r : RegIndex), s.hasRoom → s.resolve a = .ok v →
    ∃ t, exec (.push a) s = .next t ∧ t.pc = s.pc + 2 ∧
      (∀ u : State, u.stack = t.stack →
        exec (.pop (.reg r)) u = .next { u with regs := u.regs.set r.val v, stack := s.stack, pc := u.pc + 2 }) ∧
      exec (.pop (.reg r)) t = .next { s with regs := s.regs.set r.val v, pc := s.pc + 4 }

/-- The document's property L1-7 over R180 and R181. -/
def Obligations.RetAfterCallResumesAfterTheCall : Prop :=
  ∀ (s : State) (a : Operand) (v : Word), s.resolve a = .ok v → s.pc + 2 ≤ 32767 → s.hasRoom →
    ∃ t, exec (.call a) s = .next t ∧ t.pc = v.toNat ∧
      ∀ u : State, u.stack = t.stack → exec .ret u = .next { u with stack := s.stack, pc := s.pc + 2 }

/-- The identity of R150, over the three instructions that compute it. -/
def Obligations.SubtractionByComplement : Prop :=
  ∀ (s : State) (b c : Operand) (vb vc : Word) (q r : RegIndex),
    s.resolve b = .ok vb → s.resolve c = .ok vc → b ≠ .reg r →
    ∃ t u v, exec (.not (.reg r) c) s = .next t ∧ exec (.add (.reg r) (.reg r) (.lit 1)) t = .next u ∧
      exec (.add (.reg q) b (.reg r)) u = .next v ∧
      (v.regs[q].toNat : Int) = ((vb.toNat : Int) - (vc.toNat : Int)) % 32768

/-- R65, R246: fetch is coherent with data writes. -/
def Obligations.StoreOverTheNextOpcodeIsFetched : Prop :=
  ∀ (s : State) (a b : Operand) (addr v : Word), s.status = .running → s.fetchInstr = .ok (.wmem a b) →
    s.resolve a = .ok addr → s.resolve b = .ok v →
    ∃ t, step s = .next t ∧ t.cell addr.toNat = BitVec.ofNat 16 v.toNat ∧ t.pc = s.pc + 3 ∧
      (addr.toNat = s.pc + 3 →
        (∀ o : Opcode, o.number = v.toNat → s.pc + 3 + o.operandCount ≤ 32767 →
          ∃ i : Instr, i.opcode = o ∧
            (∀ (k : Nat) (h : k < (encode i).length), 0 < k → (encode i)[k] = s.cell (s.pc + 3 + k)) ∧
            step t = exec i t) ∧
        (∀ o : Opcode, o.number = v.toNat → 32767 < s.pc + 3 + o.operandCount →
          step t = .next { t with status := .faulted, faultKind := some .invalidAddress }) ∧
        (v = 0 → step t = .next { t with status := .halted, pc := s.pc + 4 }) ∧
        (22 ≤ v.toNat → step t = .next { t with status := .faulted, faultKind := some .invalidOpcode }))

/-- R39, R224, R191, R7, with the spec's decision D13 and the model's form of the wait (log 4). -/
def Obligations.HeldInputWaitsUnchanged : Prop :=
  ∀ (s : State) (r : RegIndex) (n : Nat) (w : Word), s.status = .running → s.fetchInstr = .ok (.inp (.reg r)) →
    s.inPos = s.inCodes.length → s.inEnd = false →
    runFor (n + 1) s = .next { s with inputWait := true } ∧
    State.inputRequest { s with inputWait := true } = true ∧
    answerChar w { s with inputWait := true } = .next { s with
      regs := s.regs.set r.val w, inPos := s.inPos + 1, inCodes := s.inCodes ++ [w], inputWait := false, pc := s.pc + 2 } ∧
    answerEnd { s with inputWait := true } = .next { s with
      status := .faulted, faultKind := some .inputExhausted, inEnd := true, inputWait := false }

/-- Decision D9: a claim about a program with stack depth bounded by k holds for every capacity from k up. That the capacity
stands in State is log 5. -/
def Obligations.LargeEnoughCapacityAgreesWithUnbounded : Prop :=
  ∀ (s : State) (k n : Nat),
    (∀ m, m ≤ n → ∀ t, runFor m { s with stackCapacity := .unbounded } = .next t → t.stack.length ≤ k) →
    ∀ t, runFor n { s with stackCapacity := .unbounded } = .next t →
      runFor n { s with stackCapacity := .finite k } = .next { t with stackCapacity := .finite k }

/-- R33, R34, R36, R200, with the spec's decision D17 for the numbers. -/
def Obligations.HostPortCodes : Prop :=
  (Status.running.code = 0 ∧ Status.halted.code = 1 ∧ Status.faulted.code = 2) ∧
  (FaultKind.invalidOpcode.code = 1 ∧ FaultKind.invalidOperand.code = 2 ∧ FaultKind.invalidAddress.code = 3 ∧
    FaultKind.stackUnderflow.code = 4 ∧ FaultKind.divideByZero.code = 5 ∧ FaultKind.inputExhausted.code = 6 ∧
    FaultKind.invalidWord.code = 7 ∧ FaultKind.stackOverflow.code = 8) ∧
  ∀ s : State, s.Inv → s.pcPort.toNat = s.pc ∧ (s.faultKindPort = 0 ↔ s.status ≠ .faulted) ∧ s.statusPort = s.status.code

/-- R7, R39, R191 and R224. The model's form of the wait is log 4, its refusal of an answer without a request log 10. -/
def Obligations.OnlyAHeldInputIsAnswered : Prop :=
  (∀ (s : State) (w : Word), s.inputRequest = false →
    answerChar w s = .refused .noInputRequest ∧ answerEnd s = .refused .noInputRequest) ∧
  (∀ s : State, s.ended → s.inputRequest = false) ∧
  (∀ s t : State, s.inputRequest = false → step s = .next t → t.inputRequest = true →
    s.inputAnswer = none ∧ t = { s with inputWait := true } ∧ ∃ r, s.fetchInstr = .ok (.inp (.reg r)))
end

