-- ==== Sys2Proof/Laws/Decode.lean ====
section
/-! SUPPORT. The decoder table is one-to-one (spec/30_encoding.md R73), and the three operand classes with their encodings
(R74). -/

namespace Sys2Proof

@[simp] theorem Opcode.ofNumber_number (o : Opcode) : Opcode.ofNumber o.number = some o := by
  cases o <;> rfl

theorem Opcode.number_le (o : Opcode) : o.number ≤ 21 := by
  cases o <;> decide

theorem Opcode.number_of_ofNumber {n : Nat} {o : Opcode} (h : Opcode.ofNumber n = some o) : o.number = n := by
  unfold Opcode.ofNumber at h
  split at h <;> first | (cases h; rfl) | cases h

theorem Opcode.ofNumber_of_le {n : Nat} (h : n ≤ 21) : ∃ o, Opcode.ofNumber n = some o := by
  interval_cases n <;> exact ⟨_, rfl⟩

theorem Opcode.ofNumber_of_gt {n : Nat} (h : 21 < n) : Opcode.ofNumber n = none := by
  cases ho : Opcode.ofNumber n with
  | none => rfl
  | some o =>
    have h1 := Opcode.number_of_ofNumber ho
    have h2 := o.number_le
    omega

@[simp] theorem Opcode.cell_toNat (o : Opcode) : o.cell.toNat = o.number := by
  cases o <;> rfl

theorem Opcode.cell_of_ofNumber {v : Cell} {o : Opcode} (h : Opcode.ofNumber v.toNat = some o) : o.cell = v := by
  apply BitVec.eq_of_toNat_eq
  rw [Opcode.cell_toNat, Opcode.number_of_ofNumber h]

/-! ### Operand encodings -/

theorem zext16_toNat (w : Word) : (zext16 w).toNat = w.toNat := by
  have := w.isLt
  simp only [zext16, BitVec.toNat_setWidth]
  omega

theorem low15_toNat (v : Cell) : (low15 v).toNat = v.toNat % 32768 := by
  simp [low15, BitVec.toNat_setWidth]

theorem encodeOperand_lit_toNat (w : Word) : (encodeOperand (.lit w)).toNat = w.toNat := zext16_toNat w

theorem encodeOperand_reg_toNat (r : RegIndex) : (encodeOperand (.reg r)).toNat = 32768 + r.val := by
  have := r.isLt
  simp only [encodeOperand, Config.regBase, BitVec.toNat_ofNat]
  omega

theorem encodeOperand_invalid_toNat (k : Fin 32760) : (encodeOperand (.invalid k)).toNat = 32776 + k.val := by
  have := k.isLt
  simp only [encodeOperand, Config.regLast, BitVec.toNat_ofNat]
  omega

theorem decodeOperand_literal {v : Cell} (h : v.toNat ≤ 32767) : decodeOperand v = .lit (low15 v) := by
  rw [decodeOperand, if_pos h]

theorem decodeOperand_register {v : Cell} (h : 32768 ≤ v.toNat) (h' : v.toNat ≤ 32775) :
    decodeOperand v = .reg (Fin.ofNat 8 (v.toNat - 32768)) := by
  rw [decodeOperand, if_neg (by simp only [Config.maxWord]; omega), if_pos h']

theorem decodeOperand_invalid {v : Cell} (h : 32776 ≤ v.toNat) :
    decodeOperand v = .invalid (Fin.ofNat 32760 (v.toNat - 32776)) := by
  rw [decodeOperand, if_neg (by simp only [Config.maxWord]; omega), if_neg (by simp only [Config.regLast]; omega)]

/-- Every operand class is read back from its encoding. -/
@[simp] theorem decodeOperand_encodeOperand (a : Operand) : decodeOperand (encodeOperand a) = a := by
  cases a with
  | lit w =>
    have hw := w.isLt
    rw [decodeOperand_literal (by rw [encodeOperand_lit_toNat]; omega)]
    congr 1
    apply BitVec.eq_of_toNat_eq
    rw [low15_toNat, encodeOperand_lit_toNat]
    omega
  | reg r =>
    have hr := r.isLt
    rw [decodeOperand_register (by rw [encodeOperand_reg_toNat]; omega) (by rw [encodeOperand_reg_toNat]; omega)]
    refine congrArg Operand.reg (Fin.ext ?_)
    rw [encodeOperand_reg_toNat]
    simp only [Fin.ofNat]
    omega
  | invalid k =>
    have hk := k.isLt
    rw [decodeOperand_invalid (by rw [encodeOperand_invalid_toNat]; omega)]
    refine congrArg Operand.invalid (Fin.ext ?_)
    rw [encodeOperand_invalid_toNat]
    simp only [Fin.ofNat]
    omega

/-- No bit of an operand encoding is dropped. -/
@[simp] theorem encodeOperand_decodeOperand (v : Cell) : encodeOperand (decodeOperand v) = v := by
  have hv := v.isLt
  apply BitVec.eq_of_toNat_eq
  by_cases h1 : v.toNat ≤ 32767
  · rw [decodeOperand_literal h1, encodeOperand_lit_toNat, low15_toNat]
    omega
  · by_cases h2 : v.toNat ≤ 32775
    · rw [decodeOperand_register (by omega) h2, encodeOperand_reg_toNat]
      simp only [Fin.ofNat]
      omega
    · rw [decodeOperand_invalid (by omega), encodeOperand_invalid_toNat]
      simp only [Fin.ofNat]
      omega

/-! ### Decoding the operands of a known opcode -/

/-- Everything `decodeOperands` can do: it takes exactly the row's operand words, or they are too few. -/
theorem decodeOperands_cases (o : Opcode) (ws : List Cell) :
    (∃ i rest, decodeOperands o ws = .ok (i, rest) ∧ i.opcode = o ∧ o.operandCount + rest.length = ws.length) ∨
    (decodeOperands o ws = .error .missingOperands ∧ ws.length < o.operandCount) := by
  cases o <;> rcases ws with _ | ⟨a, _ | ⟨b, _ | ⟨c, ws⟩⟩⟩ <;>
    simp [decodeOperands, decodeF0, decodeF1, decodeF2, decodeF3, Instr.opcode, Opcode.operandCount] <;> omega

theorem decode_cons_of_ofNumber {op : Cell} {o : Opcode} (h : Opcode.ofNumber op.toNat = some o) (ws : List Cell) :
    decode (op :: ws) = decodeOperands o ws := by
  simp [decode, h]

theorem decode_cons_opcode (o : Opcode) (ws : List Cell) : decode (o.cell :: ws) = decodeOperands o ws :=
  decode_cons_of_ofNumber (by simp) ws

end Sys2Proof
end

