-- ==== Sys2Proof/Laws/State.lean ====
section
/-! SUPPORT. One lemma per field per update of State, so that no later proof unfolds a record update; and the reset
values. -/

namespace Sys2Proof.Machine

variable (s : State)

/-! ### setReg -/

@[simp] theorem State.setReg_status (i : RegIndex) (v : Word) : (s.setReg i v).status = s.status := rfl
@[simp] theorem State.setReg_faultKind (i : RegIndex) (v : Word) : (s.setReg i v).faultKind = s.faultKind := rfl
@[simp] theorem State.setReg_pc (i : RegIndex) (v : Word) : (s.setReg i v).pc = s.pc := rfl
@[simp] theorem State.setReg_regs (i : RegIndex) (v : Word) : (s.setReg i v).regs = regSet s.regs i.val v := rfl
@[simp] theorem State.setReg_stack (i : RegIndex) (v : Word) : (s.setReg i v).stack = s.stack := rfl
@[simp] theorem State.setReg_mem (i : RegIndex) (v : Word) : (s.setReg i v).mem = s.mem := rfl
@[simp] theorem State.setReg_output (i : RegIndex) (v : Word) : (s.setReg i v).output = s.output := rfl
@[simp] theorem State.setReg_inPos (i : RegIndex) (v : Word) : (s.setReg i v).inPos = s.inPos := rfl
@[simp] theorem State.setReg_inputWait (i : RegIndex) (v : Word) : (s.setReg i v).inputWait = s.inputWait := rfl
@[simp] theorem State.setReg_inCodes (i : RegIndex) (v : Word) : (s.setReg i v).inCodes = s.inCodes := rfl
@[simp] theorem State.setReg_inEnd (i : RegIndex) (v : Word) : (s.setReg i v).inEnd = s.inEnd := rfl
@[simp] theorem State.setReg_stackCapacity (i : RegIndex) (v : Word) : (s.setReg i v).stackCapacity = s.stackCapacity := rfl
@[simp] theorem State.setReg_traceEn (i : RegIndex) (v : Word) : (s.setReg i v).traceEn = s.traceEn := rfl
@[simp] theorem State.setReg_dumpEn (i : RegIndex) (v : Word) : (s.setReg i v).dumpEn = s.dumpEn := rfl

/-! ### advance -/

@[simp] theorem State.advance_status (n : Nat) : (s.advance n).status = s.status := rfl
@[simp] theorem State.advance_faultKind (n : Nat) : (s.advance n).faultKind = s.faultKind := rfl
@[simp] theorem State.advance_pc (n : Nat) : (s.advance n).pc = s.pc + n := rfl
@[simp] theorem State.advance_regs (n : Nat) : (s.advance n).regs = s.regs := rfl
@[simp] theorem State.advance_stack (n : Nat) : (s.advance n).stack = s.stack := rfl
@[simp] theorem State.advance_mem (n : Nat) : (s.advance n).mem = s.mem := rfl
@[simp] theorem State.advance_output (n : Nat) : (s.advance n).output = s.output := rfl
@[simp] theorem State.advance_inPos (n : Nat) : (s.advance n).inPos = s.inPos := rfl
@[simp] theorem State.advance_inputWait (n : Nat) : (s.advance n).inputWait = s.inputWait := rfl
@[simp] theorem State.advance_inCodes (n : Nat) : (s.advance n).inCodes = s.inCodes := rfl
@[simp] theorem State.advance_inEnd (n : Nat) : (s.advance n).inEnd = s.inEnd := rfl
@[simp] theorem State.advance_stackCapacity (n : Nat) : (s.advance n).stackCapacity = s.stackCapacity := rfl
@[simp] theorem State.advance_traceEn (n : Nat) : (s.advance n).traceEn = s.traceEn := rfl
@[simp] theorem State.advance_dumpEn (n : Nat) : (s.advance n).dumpEn = s.dumpEn := rfl

/-! ### jump -/

@[simp] theorem State.jump_status (v : Word) : (s.jump v).status = s.status := rfl
@[simp] theorem State.jump_faultKind (v : Word) : (s.jump v).faultKind = s.faultKind := rfl
@[simp] theorem State.jump_pc (v : Word) : (s.jump v).pc = v.toNat := rfl
@[simp] theorem State.jump_regs (v : Word) : (s.jump v).regs = s.regs := rfl
@[simp] theorem State.jump_stack (v : Word) : (s.jump v).stack = s.stack := rfl
@[simp] theorem State.jump_mem (v : Word) : (s.jump v).mem = s.mem := rfl
@[simp] theorem State.jump_output (v : Word) : (s.jump v).output = s.output := rfl
@[simp] theorem State.jump_inPos (v : Word) : (s.jump v).inPos = s.inPos := rfl
@[simp] theorem State.jump_inputWait (v : Word) : (s.jump v).inputWait = s.inputWait := rfl
@[simp] theorem State.jump_inCodes (v : Word) : (s.jump v).inCodes = s.inCodes := rfl
@[simp] theorem State.jump_inEnd (v : Word) : (s.jump v).inEnd = s.inEnd := rfl
@[simp] theorem State.jump_stackCapacity (v : Word) : (s.jump v).stackCapacity = s.stackCapacity := rfl
@[simp] theorem State.jump_traceEn (v : Word) : (s.jump v).traceEn = s.traceEn := rfl
@[simp] theorem State.jump_dumpEn (v : Word) : (s.jump v).dumpEn = s.dumpEn := rfl

/-! ### emit -/

@[simp] theorem State.emit_status (v : Word) : (s.emit v).status = s.status := rfl
@[simp] theorem State.emit_faultKind (v : Word) : (s.emit v).faultKind = s.faultKind := rfl
@[simp] theorem State.emit_pc (v : Word) : (s.emit v).pc = s.pc := rfl
@[simp] theorem State.emit_regs (v : Word) : (s.emit v).regs = s.regs := rfl
@[simp] theorem State.emit_stack (v : Word) : (s.emit v).stack = s.stack := rfl
@[simp] theorem State.emit_mem (v : Word) : (s.emit v).mem = s.mem := rfl
@[simp] theorem State.emit_output (v : Word) : (s.emit v).output = s.output ++ [v] := rfl
@[simp] theorem State.emit_inPos (v : Word) : (s.emit v).inPos = s.inPos := rfl
@[simp] theorem State.emit_inputWait (v : Word) : (s.emit v).inputWait = s.inputWait := rfl
@[simp] theorem State.emit_inCodes (v : Word) : (s.emit v).inCodes = s.inCodes := rfl
@[simp] theorem State.emit_inEnd (v : Word) : (s.emit v).inEnd = s.inEnd := rfl
@[simp] theorem State.emit_stackCapacity (v : Word) : (s.emit v).stackCapacity = s.stackCapacity := rfl
@[simp] theorem State.emit_traceEn (v : Word) : (s.emit v).traceEn = s.traceEn := rfl
@[simp] theorem State.emit_dumpEn (v : Word) : (s.emit v).dumpEn = s.dumpEn := rfl

/-! ### consumeInput -/

@[simp] theorem State.consumeInput_status : (s.consumeInput).status = s.status := rfl
@[simp] theorem State.consumeInput_faultKind : (s.consumeInput).faultKind = s.faultKind := rfl
@[simp] theorem State.consumeInput_pc : (s.consumeInput).pc = s.pc := rfl
@[simp] theorem State.consumeInput_regs : (s.consumeInput).regs = s.regs := rfl
@[simp] theorem State.consumeInput_stack : (s.consumeInput).stack = s.stack := rfl
@[simp] theorem State.consumeInput_mem : (s.consumeInput).mem = s.mem := rfl
@[simp] theorem State.consumeInput_output : (s.consumeInput).output = s.output := rfl
@[simp] theorem State.consumeInput_inPos : (s.consumeInput).inPos = s.inPos + 1 := rfl
@[simp] theorem State.consumeInput_inputWait : (s.consumeInput).inputWait = s.inputWait := rfl
@[simp] theorem State.consumeInput_inCodes : (s.consumeInput).inCodes = s.inCodes := rfl
@[simp] theorem State.consumeInput_inEnd : (s.consumeInput).inEnd = s.inEnd := rfl
@[simp] theorem State.consumeInput_stackCapacity : (s.consumeInput).stackCapacity = s.stackCapacity := rfl
@[simp] theorem State.consumeInput_traceEn : (s.consumeInput).traceEn = s.traceEn := rfl
@[simp] theorem State.consumeInput_dumpEn : (s.consumeInput).dumpEn = s.dumpEn := rfl

/-! ### holdInput -/

@[simp] theorem State.holdInput_status : (s.holdInput).status = s.status := rfl
@[simp] theorem State.holdInput_faultKind : (s.holdInput).faultKind = s.faultKind := rfl
@[simp] theorem State.holdInput_pc : (s.holdInput).pc = s.pc := rfl
@[simp] theorem State.holdInput_regs : (s.holdInput).regs = s.regs := rfl
@[simp] theorem State.holdInput_stack : (s.holdInput).stack = s.stack := rfl
@[simp] theorem State.holdInput_mem : (s.holdInput).mem = s.mem := rfl
@[simp] theorem State.holdInput_output : (s.holdInput).output = s.output := rfl
@[simp] theorem State.holdInput_inPos : (s.holdInput).inPos = s.inPos := rfl
@[simp] theorem State.holdInput_inputWait : (s.holdInput).inputWait = true := rfl
@[simp] theorem State.holdInput_inCodes : (s.holdInput).inCodes = s.inCodes := rfl
@[simp] theorem State.holdInput_inEnd : (s.holdInput).inEnd = s.inEnd := rfl
@[simp] theorem State.holdInput_stackCapacity : (s.holdInput).stackCapacity = s.stackCapacity := rfl
@[simp] theorem State.holdInput_traceEn : (s.holdInput).traceEn = s.traceEn := rfl
@[simp] theorem State.holdInput_dumpEn : (s.holdInput).dumpEn = s.dumpEn := rfl

/-! ### endInputWait -/

@[simp] theorem State.endInputWait_status : (s.endInputWait).status = s.status := rfl
@[simp] theorem State.endInputWait_faultKind : (s.endInputWait).faultKind = s.faultKind := rfl
@[simp] theorem State.endInputWait_pc : (s.endInputWait).pc = s.pc := rfl
@[simp] theorem State.endInputWait_regs : (s.endInputWait).regs = s.regs := rfl
@[simp] theorem State.endInputWait_stack : (s.endInputWait).stack = s.stack := rfl
@[simp] theorem State.endInputWait_mem : (s.endInputWait).mem = s.mem := rfl
@[simp] theorem State.endInputWait_output : (s.endInputWait).output = s.output := rfl
@[simp] theorem State.endInputWait_inPos : (s.endInputWait).inPos = s.inPos := rfl
@[simp] theorem State.endInputWait_inputWait : (s.endInputWait).inputWait = false := rfl
@[simp] theorem State.endInputWait_inCodes : (s.endInputWait).inCodes = s.inCodes := rfl
@[simp] theorem State.endInputWait_inEnd : (s.endInputWait).inEnd = s.inEnd := rfl
@[simp] theorem State.endInputWait_stackCapacity : (s.endInputWait).stackCapacity = s.stackCapacity := rfl
@[simp] theorem State.endInputWait_traceEn : (s.endInputWait).traceEn = s.traceEn := rfl
@[simp] theorem State.endInputWait_dumpEn : (s.endInputWait).dumpEn = s.dumpEn := rfl

/-! ### halt -/

@[simp] theorem State.halt_status : (s.halt).status = .halted := rfl
@[simp] theorem State.halt_faultKind : (s.halt).faultKind = s.faultKind := rfl
@[simp] theorem State.halt_pc : (s.halt).pc = s.pc := rfl
@[simp] theorem State.halt_regs : (s.halt).regs = s.regs := rfl
@[simp] theorem State.halt_stack : (s.halt).stack = s.stack := rfl
@[simp] theorem State.halt_mem : (s.halt).mem = s.mem := rfl
@[simp] theorem State.halt_output : (s.halt).output = s.output := rfl
@[simp] theorem State.halt_inPos : (s.halt).inPos = s.inPos := rfl
@[simp] theorem State.halt_inputWait : (s.halt).inputWait = s.inputWait := rfl
@[simp] theorem State.halt_inCodes : (s.halt).inCodes = s.inCodes := rfl
@[simp] theorem State.halt_inEnd : (s.halt).inEnd = s.inEnd := rfl
@[simp] theorem State.halt_stackCapacity : (s.halt).stackCapacity = s.stackCapacity := rfl
@[simp] theorem State.halt_traceEn : (s.halt).traceEn = s.traceEn := rfl
@[simp] theorem State.halt_dumpEn : (s.halt).dumpEn = s.dumpEn := rfl

/-! ### raised -/

@[simp] theorem State.raised_status (k : FaultKind) : (s.raised k).status = .faulted := rfl
@[simp] theorem State.raised_faultKind (k : FaultKind) : (s.raised k).faultKind = some k := rfl
@[simp] theorem State.raised_pc (k : FaultKind) : (s.raised k).pc = s.pc := rfl
@[simp] theorem State.raised_regs (k : FaultKind) : (s.raised k).regs = s.regs := rfl
@[simp] theorem State.raised_stack (k : FaultKind) : (s.raised k).stack = s.stack := rfl
@[simp] theorem State.raised_mem (k : FaultKind) : (s.raised k).mem = s.mem := rfl
@[simp] theorem State.raised_output (k : FaultKind) : (s.raised k).output = s.output := rfl
@[simp] theorem State.raised_inPos (k : FaultKind) : (s.raised k).inPos = s.inPos := rfl
@[simp] theorem State.raised_inputWait (k : FaultKind) : (s.raised k).inputWait = s.inputWait := rfl
@[simp] theorem State.raised_inCodes (k : FaultKind) : (s.raised k).inCodes = s.inCodes := rfl
@[simp] theorem State.raised_inEnd (k : FaultKind) : (s.raised k).inEnd = s.inEnd := rfl
@[simp] theorem State.raised_stackCapacity (k : FaultKind) : (s.raised k).stackCapacity = s.stackCapacity := rfl
@[simp] theorem State.raised_traceEn (k : FaultKind) : (s.raised k).traceEn = s.traceEn := rfl
@[simp] theorem State.raised_dumpEn (k : FaultKind) : (s.raised k).dumpEn = s.dumpEn := rfl

/-! ### withFetchWord -/

variable (nbits w : Nat)

@[simp] theorem State.withFetchWord_status : (s.withFetchWord nbits w).status = .running := rfl
@[simp] theorem State.withFetchWord_faultKind : (s.withFetchWord nbits w).faultKind = none := rfl
@[simp] theorem State.withFetchWord_pc : (s.withFetchWord nbits w).pc = s.pc := rfl
@[simp] theorem State.withFetchWord_regs : (s.withFetchWord nbits w).regs = s.regs := rfl
@[simp] theorem State.withFetchWord_stack : (s.withFetchWord nbits w).stack = s.stack := rfl
@[simp] theorem State.withFetchWord_mem : (s.withFetchWord nbits w).mem = storeCells s.pc (cellsOfNumber nbits w) s.mem := rfl
@[simp] theorem State.withFetchWord_output : (s.withFetchWord nbits w).output = s.output := rfl
@[simp] theorem State.withFetchWord_inPos : (s.withFetchWord nbits w).inPos = s.inPos := rfl
@[simp] theorem State.withFetchWord_inputWait : (s.withFetchWord nbits w).inputWait = s.inputWait := rfl
@[simp] theorem State.withFetchWord_inCodes : (s.withFetchWord nbits w).inCodes = s.inCodes := rfl
@[simp] theorem State.withFetchWord_inEnd : (s.withFetchWord nbits w).inEnd = s.inEnd := rfl
@[simp] theorem State.withFetchWord_stackCapacity : (s.withFetchWord nbits w).stackCapacity = s.stackCapacity := rfl
@[simp] theorem State.withFetchWord_traceEn : (s.withFetchWord nbits w).traceEn = s.traceEn := rfl
@[simp] theorem State.withFetchWord_dumpEn : (s.withFetchWord nbits w).dumpEn = s.dumpEn := rfl

/-! ### construct -/

variable (cap : StackCapacity) (tr du : Bool)

@[simp] theorem State.construct_status : (State.construct cap tr du).status = .running := rfl
@[simp] theorem State.construct_faultKind : (State.construct cap tr du).faultKind = none := rfl
@[simp] theorem State.construct_pc : (State.construct cap tr du).pc = 0 := rfl
@[simp] theorem State.construct_regs : (State.construct cap tr du).regs = #v[0, 0, 0, 0, 0, 0, 0, 0] := rfl
@[simp] theorem State.construct_stack : (State.construct cap tr du).stack = [] := rfl
@[simp] theorem State.construct_mem : (State.construct cap tr du).mem = [] := rfl
@[simp] theorem State.construct_output : (State.construct cap tr du).output = [] := rfl
@[simp] theorem State.construct_inPos : (State.construct cap tr du).inPos = 0 := rfl
@[simp] theorem State.construct_inputWait : (State.construct cap tr du).inputWait = false := rfl
@[simp] theorem State.construct_inCodes : (State.construct cap tr du).inCodes = [] := rfl
@[simp] theorem State.construct_inEnd : (State.construct cap tr du).inEnd = false := rfl
@[simp] theorem State.construct_stackCapacity : (State.construct cap tr du).stackCapacity = cap := rfl
@[simp] theorem State.construct_traceEn : (State.construct cap tr du).traceEn = tr := rfl
@[simp] theorem State.construct_dumpEn : (State.construct cap tr du).dumpEn = du := rfl

theorem State.reset_eq_construct : State.reset = State.construct .unbounded false false := rfl

end Sys2Proof.Machine
end

