-- ==== Sys2Proof/Laws/Memory.lean ====
section
/-! SUPPORT. Memory: a read after a write, what a write leaves alone, and that every memory operation keeps the canonical
form, in which equal contents are equal lists. -/

namespace Sys2Proof.Machine

/-! ### Reads after writes -/

@[simp] theorem Memory.cellAt_nil (a : Nat) : Memory.cellAt a [] = unloadedCell := rfl

theorem Memory.cellAt_cons (a b : Nat) (v : Cell) (m : Memory) :
    Memory.cellAt a ((b, v) :: m) = if a = b then v else Memory.cellAt a m := rfl

theorem Memory.cellAt_remove_same (a : Nat) (m : Memory) : (Memory.remove a m).cellAt a = unloadedCell := by
  induction m with
  | nil => rfl
  | cons c m ih =>
    obtain ⟨b, v⟩ := c
    by_cases h : b = a
    · subst h; simpa [Memory.remove] using ih
    · have h' : a ≠ b := fun e => h e.symm
      simpa [Memory.remove, h, h', Memory.cellAt_cons] using ih

theorem Memory.cellAt_remove_other {a b : Nat} (h : b ≠ a) (m : Memory) :
    (Memory.remove a m).cellAt b = m.cellAt b := by
  induction m with
  | nil => rfl
  | cons c m ih =>
    obtain ⟨d, v⟩ := c
    by_cases hd : d = a
    · subst hd; simpa [Memory.remove, Memory.cellAt_cons, h] using ih
    · by_cases hb : b = d
      · simp [Memory.remove, hd, Memory.cellAt_cons, hb]
      · simpa [Memory.remove, hd, Memory.cellAt_cons, hb] using ih

theorem Memory.cellAt_insertPair_other {a b : Nat} (h : b ≠ a) (v : Cell) (m : Memory) :
    (Memory.insertPair a v m).cellAt b = m.cellAt b := by
  induction m with
  | nil => simp [Memory.insertPair, Memory.cellAt_cons, h]
  | cons c m ih =>
    obtain ⟨d, w⟩ := c
    by_cases hd : a < d
    · simp [Memory.insertPair, hd, Memory.cellAt_cons, h]
    · simp [Memory.insertPair, hd, Memory.cellAt_cons, ih]

theorem Memory.cellAt_insertPair_same (a : Nat) (v : Cell) (m : Memory) (h : ∀ c ∈ m, c.1 ≠ a) :
    (Memory.insertPair a v m).cellAt a = v := by
  induction m with
  | nil => simp [Memory.insertPair, Memory.cellAt_cons]
  | cons c m ih =>
    obtain ⟨d, w⟩ := c
    have hda : d ≠ a := h (d, w) (by simp)
    have had : a ≠ d := fun e => hda e.symm
    by_cases hd : a < d
    · simp [Memory.insertPair, hd, Memory.cellAt_cons]
    · simp [Memory.insertPair, hd, Memory.cellAt_cons, had, ih fun c hc => h c (by simp [hc])]

theorem Memory.ne_of_mem_remove {a : Nat} {m : Memory} {c : Nat × Cell} (h : c ∈ Memory.remove a m) : c.1 ≠ a := by
  simpa using (List.mem_filter.mp h).2

/-- A read of the cell just written gives the value written. -/
@[simp] theorem Memory.cellAt_put_same (a : Nat) (v : Cell) (m : Memory) : (m.put a v).cellAt a = v := by
  unfold Memory.put
  split
  · rename_i h; rw [h, Memory.cellAt_remove_same]
  · exact Memory.cellAt_insertPair_same a v _ fun c hc => Memory.ne_of_mem_remove hc

/-- A write leaves every other cell alone. -/
theorem Memory.cellAt_put_other {a b : Nat} (h : b ≠ a) (v : Cell) (m : Memory) :
    (m.put a v).cellAt b = m.cellAt b := by
  unfold Memory.put
  split
  · exact Memory.cellAt_remove_other h m
  · rw [Memory.cellAt_insertPair_other h, Memory.cellAt_remove_other h]

theorem Memory.cellAt_put (a b : Nat) (v : Cell) (m : Memory) :
    (m.put a v).cellAt b = if b = a then v else m.cellAt b := by
  split
  · rename_i h; rw [h, Memory.cellAt_put_same]
  · rename_i h; exact Memory.cellAt_put_other h v m

/-- Storing cells from `a` up: cell i of the list stands at `a + i`, and every other cell is left alone. -/
theorem Memory.cellAt_storeCells (vs : List Cell) (a b : Nat) (m : Memory) (hb : b < Config.memWords) :
    (storeCells a vs m).cellAt b = if a ≤ b then (vs[b - a]?).getD (m.cellAt b) else m.cellAt b := by
  induction vs generalizing a m with
  | nil => simp [storeCells]
  | cons v vs ih =>
    rw [storeCells, ih]
    rcases Nat.lt_trichotomy b a with h | h | h
    · have h1 : ¬ a + 1 ≤ b := by omega
      have h2 : ¬ a ≤ b := by omega
      have h3 : b ≠ a := by omega
      by_cases ha : a < Config.memWords
      · simp only [h1, h2, ha, if_true, if_false, Memory.cellAt_put_other h3]
      · simp only [h1, h2, ha, if_false]
    · subst h
      have h1 : ¬ b + 1 ≤ b := by omega
      simp only [h1, hb, if_true, if_false, Nat.le_refl, Nat.sub_self, List.getElem?_cons_zero, Option.getD_some,
        Memory.cellAt_put_same]
    · have h1 : a + 1 ≤ b := by omega
      have h2 : a ≤ b := by omega
      have h3 : b ≠ a := by omega
      have ha : a < Config.memWords := by omega
      have h4 : b - a = (b - (a + 1)) + 1 := by omega
      simp only [h1, h2, ha, if_true, Memory.cellAt_put_other h3, h4, List.getElem?_cons_succ]

/-! ### The canonical form -/

@[simp] theorem Memory.wfFrom_nil (lo : Nat) : Memory.wfFrom lo [] = true := rfl

theorem Memory.wfFrom_cons (lo a : Nat) (v : Cell) (m : Memory) :
    Memory.wfFrom lo ((a, v) :: m) = true ↔
      lo ≤ a ∧ a < Config.memWords ∧ v ≠ unloadedCell ∧ Memory.wfFrom (a + 1) m = true := by
  simp [Memory.wfFrom, and_assoc]

theorem Memory.wfFrom_mono {lo lo' : Nat} (h : lo' ≤ lo) {m : Memory} (hm : Memory.wfFrom lo m = true) :
    Memory.wfFrom lo' m = true := by
  cases m with
  | nil => rfl
  | cons c m =>
    obtain ⟨a, v⟩ := c
    rw [Memory.wfFrom_cons] at hm ⊢
    exact ⟨h.trans hm.1, hm.2⟩

theorem Memory.wfFrom_remove (a : Nat) {lo : Nat} {m : Memory} (hm : Memory.wfFrom lo m = true) :
    Memory.wfFrom lo (Memory.remove a m) = true := by
  induction m generalizing lo with
  | nil => rfl
  | cons c m ih =>
    obtain ⟨b, v⟩ := c
    rw [Memory.wfFrom_cons] at hm
    by_cases h : b = a
    · have : Memory.remove a ((b, v) :: m) = Memory.remove a m := by simp [Memory.remove, h]
      rw [this]
      exact Memory.wfFrom_mono (by omega) (ih hm.2.2.2)
    · have : Memory.remove a ((b, v) :: m) = (b, v) :: Memory.remove a m := by simp [Memory.remove, h]
      rw [this, Memory.wfFrom_cons]
      exact ⟨hm.1, hm.2.1, hm.2.2.1, ih hm.2.2.2⟩

theorem Memory.wfFrom_insertPair {a : Nat} {v : Cell} (ha : a < Config.memWords) (hv : v ≠ unloadedCell) {lo : Nat}
    {m : Memory} (hlo : lo ≤ a) (hm : Memory.wfFrom lo m = true) (hne : ∀ c ∈ m, c.1 ≠ a) :
    Memory.wfFrom lo (Memory.insertPair a v m) = true := by
  induction m generalizing lo with
  | nil => simpa [Memory.insertPair, Memory.wfFrom_cons] using ⟨hlo, ha, hv⟩
  | cons c m ih =>
    obtain ⟨b, w⟩ := c
    have hba : b ≠ a := hne (b, w) (by simp)
    rw [Memory.wfFrom_cons] at hm
    by_cases h : a < b
    · simp only [Memory.insertPair, h, if_true]
      rw [Memory.wfFrom_cons, Memory.wfFrom_cons]
      exact ⟨hlo, ha, hv, h, hm.2⟩
    · simp only [Memory.insertPair, h, if_false]
      rw [Memory.wfFrom_cons]
      exact ⟨hm.1, hm.2.1, hm.2.2.1, ih (by omega) hm.2.2.2 fun c hc => hne c (by simp [hc])⟩

/-- A write keeps the canonical form. -/
theorem Memory.put_wf {a : Nat} (v : Cell) {m : Memory} (ha : a < Config.memWords) (hm : m.wf = true) :
    (m.put a v).wf = true := by
  unfold Memory.put
  split
  · exact Memory.wfFrom_remove a hm
  · rename_i hv
    exact Memory.wfFrom_insertPair ha hv (Nat.zero_le a) (Memory.wfFrom_remove a hm) fun c hc => Memory.ne_of_mem_remove hc

/-- A load keeps the canonical form. -/
theorem storeCells_wf (vs : List Cell) (a : Nat) {m : Memory} (hm : m.wf = true) : (storeCells a vs m).wf = true := by
  induction vs generalizing a m with
  | nil => exact hm
  | cons v vs ih =>
    rw [storeCells]
    split
    · rename_i ha; exact ih (a + 1) (Memory.put_wf v ha hm)
    · exact ih (a + 1) hm

theorem construct_mem_wf (cap : StackCapacity) (tr du : Bool) : (State.construct cap tr du).mem.wf = true := rfl

theorem reset_mem_wf : State.reset.mem.wf = true := rfl

theorem Memory.cellAt_below {lo a : Nat} {m : Memory} (hm : Memory.wfFrom lo m = true) (h : a < lo) :
    m.cellAt a = unloadedCell := by
  induction m generalizing lo with
  | nil => rfl
  | cons c m ih =>
    obtain ⟨b, v⟩ := c
    rw [Memory.wfFrom_cons] at hm
    rw [Memory.cellAt_cons, if_neg (by omega)]
    exact ih hm.2.2.2 (by omega)

theorem Memory.eq_of_cellAt_from {lo : Nat} {m m' : Memory} (hm : Memory.wfFrom lo m = true)
    (hm' : Memory.wfFrom lo m' = true) (h : ∀ a, m.cellAt a = m'.cellAt a) : m = m' := by
  induction m generalizing lo m' with
  | nil =>
    cases m' with
    | nil => rfl
    | cons c m' =>
      obtain ⟨b, v⟩ := c
      rw [Memory.wfFrom_cons] at hm'
      have := h b
      rw [Memory.cellAt_cons, if_pos rfl] at this
      exact absurd this.symm hm'.2.2.1
  | cons c m ih =>
    obtain ⟨a, v⟩ := c
    rw [Memory.wfFrom_cons] at hm
    cases m' with
    | nil =>
      have := h a
      rw [Memory.cellAt_cons, if_pos rfl] at this
      exact absurd this hm.2.2.1
    | cons c' m' =>
      obtain ⟨b, w⟩ := c'
      rw [Memory.wfFrom_cons] at hm'
      have hab : a = b := by
        rcases Nat.lt_trichotomy a b with hlt | heq | hgt
        · have := h a
          rw [Memory.cellAt_cons, if_pos rfl, Memory.cellAt_cons, if_neg (by omega),
            Memory.cellAt_below hm'.2.2.2 (by omega)] at this
          exact absurd this hm.2.2.1
        · exact heq
        · have := h b
          rw [Memory.cellAt_cons, if_neg (by omega), Memory.cellAt_cons, if_pos rfl,
            Memory.cellAt_below hm.2.2.2 (by omega)] at this
          exact absurd this.symm hm'.2.2.1
      subst hab
      have hv : v = w := by simpa [Memory.cellAt_cons] using h a
      subst hv
      have : m = m' := by
        refine ih hm.2.2.2 hm'.2.2.2 fun d => ?_
        by_cases hd : d = a
        · subst hd
          rw [Memory.cellAt_below hm.2.2.2 (by omega), Memory.cellAt_below hm'.2.2.2 (by omega)]
        · simpa [Memory.cellAt_cons, hd] using h d
      rw [this]

/-- In canonical form, equal contents are equal lists. -/
theorem Memory.eq_of_cellAt {m m' : Memory} (hm : m.wf = true) (hm' : m'.wf = true)
    (h : ∀ a, m.cellAt a = m'.cellAt a) : m = m' :=
  Memory.eq_of_cellAt_from hm hm' h

/-! ### The accesses of a step -/

theorem State.memRead_of_lt (s : State) {a : Nat} (h : a < Config.memWords) : s.memRead a = .ok (s.cell a) := by
  rw [State.memRead, if_pos h]

theorem State.memRead_of_not_lt (s : State) {a : Nat} (h : ¬ a < Config.memWords) :
    s.memRead a = .error .invalidAddress := by
  rw [State.memRead, if_neg h]

theorem word_lt_memWords (v : Word) : v.toNat < Config.memWords := v.isLt

/-- A Word is always an address of a cell, so a data read through one never faults (R56). -/
@[simp] theorem State.memRead_word (s : State) (v : Word) : s.memRead v.toNat = .ok (s.cell v.toNat) :=
  s.memRead_of_lt (word_lt_memWords v)

/-- A Word is always an address of a cell, so a data write through one never faults (R56). -/
@[simp] theorem State.memWrite_word (s : State) (a v : Word) :
    s.memWrite a.toNat v = .ok { s with mem := s.mem.put a.toNat (zext16 v) } := by
  rw [State.memWrite, if_pos (word_lt_memWords a)]

/-- Everything `memWrite` can do. -/
theorem State.memWrite_ok {s t : State} {a : Nat} {v : Word} (h : s.memWrite a v = .ok t) :
    a < Config.memWords ∧ t = { s with mem := s.mem.put a (zext16 v) } := by
  unfold State.memWrite at h
  split at h
  · rename_i ha; exact ⟨ha, by simpa using h.symm⟩
  · cases h

/-- `readSlice` inside memory gives the cells in address order. -/
theorem State.readSlice_ok (s : State) (start n : Nat) (h : start + n ≤ Config.memWords) :
    s.readSlice start n = .ok ((List.range' start n).map s.cell) := by
  induction n generalizing start with
  | zero => rfl
  | succ n ih =>
    rw [State.readSlice, s.memRead_of_lt (by omega), ih (start + 1) (by omega)]
    simp [bind, Except.bind, pure, Except.pure, List.range'_succ]

/-- `readSlice` past the top of memory is InvalidAddress (R57). -/
theorem State.readSlice_error (s : State) (start n : Nat) (h : Config.memWords < start + n) (hn : 0 < n) :
    s.readSlice start n = .error .invalidAddress := by
  induction n generalizing start with
  | zero => omega
  | succ n ih =>
    rw [State.readSlice]
    by_cases hs : start < Config.memWords
    · rw [s.memRead_of_lt hs, ih (start + 1) (by omega) (by omega)]
      rfl
    · rw [s.memRead_of_not_lt hs]
      rfl

end Sys2Proof.Machine
end

