-- ==== Sys2Proof/Laws/Registers.lean ====
section
/-! SUPPORT. The register file: its index never leaves 0..7 (spec/10_state.md R21), and reads after writes. -/

namespace Sys2Proof.Machine

theorem regGet_index (regs : Vector Word 8) (i : RegIndex) : regGet regs i.val = regs[i] := by
  simp [regGet, Nat.mod_eq_of_lt i.isLt]

theorem regSet_index (regs : Vector Word 8) (i : RegIndex) (v : Word) : regSet regs i.val v = regs.set i.val v := by
  simp [regSet, Nat.mod_eq_of_lt i.isLt]

@[simp] theorem State.getReg_eq (s : State) (i : RegIndex) : s.getReg i = s.regs[i] := regGet_index s.regs i

theorem State.setReg_eq (s : State) (i : RegIndex) (v : Word) :
    s.setReg i v = { s with regs := s.regs.set i.val v } := by
  simp [State.setReg, regSet_index]

theorem State.getReg_setReg_same (s : State) (i : RegIndex) (v : Word) : (s.setReg i v).getReg i = v := by
  simp [regSet_index]

theorem State.getReg_setReg_other (s : State) {i j : RegIndex} (v : Word) (h : j ≠ i) :
    (s.setReg i v).getReg j = s.getReg j := by
  have : i.val ≠ j.val := fun e => h (Fin.ext e.symm)
  simp [regSet_index, this]

end Sys2Proof.Machine
end

