-- ==== Sys2Proof/Laws/Operands.lean ====
section
/-! SUPPORT. The operand resolver by class, and when a slot is bad (spec/30_encoding.md R75, R76; spec/60_exceptions.md
R202). -/

namespace Sys2Proof.Machine

@[simp] theorem State.resolve_lit (s : State) (w : Word) : s.resolve (.lit w) = .ok w := rfl

@[simp] theorem State.resolve_reg (s : State) (r : RegIndex) : s.resolve (.reg r) = .ok s.regs[r] := by
  simp [State.resolve]

@[simp] theorem State.resolve_invalid (s : State) (k : Fin 32760) :
    s.resolve (.invalid k) = .error .invalidOperand := rfl

@[simp] theorem destReg_reg (r : RegIndex) : destReg (.reg r) = .ok r := rfl
@[simp] theorem destReg_lit (w : Word) : destReg (.lit w) = .error .invalidOperand := rfl
@[simp] theorem destReg_invalid (k : Fin 32760) : destReg (.invalid k) = .error .invalidOperand := rfl

/-- Everything `resolve` can do. -/
theorem State.resolve_cases (s : State) (a : Operand) :
    (∃ v, s.resolve a = .ok v) ∨ s.resolve a = .error .invalidOperand := by
  cases a <;> simp

/-- Everything `dest` can do. -/
theorem destReg_cases (a : Operand) : (∃ r, a = .reg r ∧ destReg a = .ok r) ∨ destReg a = .error .invalidOperand := by
  cases a <;> simp

theorem destReg_ok {a : Operand} {r : RegIndex} (h : destReg a = .ok r) : a = .reg r := by
  cases a <;> simp at h ⊢
  exact h

theorem badDest_iff (a : Operand) : badDest a ↔ destReg a = .error .invalidOperand := by
  cases a with
  | lit w => have := w.isLt; simp [badDest, encodeOperand_lit_toNat]; omega
  | reg r => have := r.isLt; simp [badDest, encodeOperand_reg_toNat]; omega
  | invalid k => simp [badDest, encodeOperand_invalid_toNat]; omega

theorem badValue_iff (s : State) (a : Operand) : badValue a ↔ s.resolve a = .error .invalidOperand := by
  cases a with
  | lit w => have := w.isLt; simp [badValue, encodeOperand_lit_toNat]; omega
  | reg r => have := r.isLt; simp [badValue, encodeOperand_reg_toNat]; omega
  | invalid k => simp [badValue, encodeOperand_invalid_toNat]

@[simp] theorem not_badDest_reg (r : RegIndex) : ¬ badDest (.reg r) := by simp [badDest_iff]
@[simp] theorem not_badValue_lit (w : Word) : ¬ badValue (.lit w) := by
  simp [badValue_iff State.reset]
@[simp] theorem not_badValue_reg (r : RegIndex) : ¬ badValue (.reg r) := by
  rw [badValue_iff State.reset, State.resolve_reg]; simp

theorem badSlot_iff_not_admits (p : Role × Operand) : badSlot p ↔ p.1.admits p.2 = false := by
  obtain ⟨r, a⟩ := p
  cases r with
  | dest => cases a <;> simp [badSlot, badDest_iff, Role.admits]
  | value => cases a <;> simp [badSlot, badValue_iff State.reset, Role.admits]

/-- An instruction is well formed exactly where no slot is bad. -/
theorem wellFormed_iff (i : Instr) : i.wellFormed = true ↔ ∀ p ∈ i.slots, ¬ badSlot p := by
  simp only [Instr.wellFormed, List.all_eq_true, badSlot_iff_not_admits, Bool.not_eq_false]

end Sys2Proof.Machine
end

