-- ==== Sys2Proof/Laws/Exec.lean ====
section
/-! SUPPORT. For each shared operation and each meaning, one lemma that says everything it can do: its own effect under
the checks that let it through, or the fault it takes. Later proofs cite these and unfold no meaning. -/

namespace Sys2Proof.Machine

@[simp] theorem settle_ok (s t : State) : settle s (.ok t) = .next t := rfl
@[simp] theorem settle_error (s : State) (k : FaultKind) : settle s (.error k) = .next (s.raised k) := rfl

/-! ### Shared operations -/

theorem stackFull_iff (s : State) : stackFull s.stackCapacity s.stackSize = false ↔ s.hasRoom := by
  unfold State.hasRoom StackCapacity.allows State.stackSize
  cases s.stackCapacity <;> simp [stackFull]

/-- Everything `push` can do. -/
theorem State.push_cases (s : State) (v : Word) :
    (s.hasRoom ∧ s.push v = .ok { s with stack := s.stack ++ [v] }) ∨
    (¬ s.hasRoom ∧ s.push v = .error .stackOverflow) := by
  by_cases h : stackFull s.stackCapacity s.stackSize = true
  · exact .inr ⟨by rw [← stackFull_iff]; simp [h], by rw [State.push, if_pos h]⟩
  · exact .inl ⟨by rw [← stackFull_iff]; simpa using h, by rw [State.push, if_neg h]⟩

/-- Everything `pop` can do. -/
theorem State.pop_cases (s : State) :
    (∃ rest v, s.stack = rest ++ [v] ∧ s.pop = .ok (v, { s with stack := rest })) ∨
    (s.stack = [] ∧ s.pop = .error .stackUnderflow) := by
  rcases List.eq_nil_or_concat s.stack with h | ⟨rest, v, h⟩
  · exact .inr ⟨h, by simp [State.pop, h]⟩
  · rw [List.concat_eq_append] at h
    exact .inl ⟨rest, v, h, by simp [State.pop, h]⟩

theorem State.pop_of_stack {s : State} {rest : List Word} {v : Word} (h : s.stack = rest ++ [v]) :
    s.pop = .ok (v, { s with stack := rest }) := by
  simp [State.pop, h]

/-- Everything `returnAddress` can do. -/
theorem State.returnAddress_cases (s : State) :
    (s.pc + 2 ≤ 32767 ∧ s.returnAddress = .ok (BitVec.ofNat 15 (s.pc + 2))) ∨
    (32767 < s.pc + 2 ∧ s.returnAddress = .error .invalidAddress) := by
  by_cases h : s.pc + 2 ≤ 32767
  · exact .inl ⟨h, by rw [State.returnAddress, if_pos h]⟩
  · exact .inr ⟨by omega, by rw [State.returnAddress, if_neg h]⟩

/-- Everything `wordOfCell` can do. -/
theorem wordOfCell_cases (v : Cell) :
    (v.toNat ≤ 32767 ∧ wordOfCell v = .ok (low15 v)) ∨ (32767 < v.toNat ∧ wordOfCell v = .error .invalidWord) := by
  by_cases h : v.toNat ≤ 32767
  · exact .inl ⟨h, by rw [wordOfCell, if_pos h]⟩
  · exact .inr ⟨by omega, by rw [wordOfCell, if_neg h]⟩

/-- Everything the host's answer to a request can be. -/
theorem State.inputAnswer_cases (s : State) :
    (∃ w, s.inCodes[s.inPos]? = some w ∧ s.inputAnswer = some (.char w)) ∨
    (s.inCodes[s.inPos]? = none ∧ s.inEnd = true ∧ s.inputAnswer = some .endOfInput) ∨
    (s.inCodes[s.inPos]? = none ∧ s.inEnd = false ∧ s.inputAnswer = none) := by
  unfold State.inputAnswer
  cases h : s.inCodes[s.inPos]? with
  | some w => exact .inl ⟨w, rfl, rfl⟩
  | none => cases he : s.inEnd <;> simp

/-- Everything an instruction of the shape `binaryOp` can do. -/
theorem binaryOp_cases (f : Word → Word → Except FaultKind Word) (a b c : Operand) (s : State) :
    (∃ i vb vc r, a = .reg i ∧ s.resolve b = .ok vb ∧ s.resolve c = .ok vc ∧ f vb vc = .ok r ∧
      binaryOp f a b c s = .next ((s.setReg i r).advance 4)) ∨
    (∃ i vb vc k, a = .reg i ∧ s.resolve b = .ok vb ∧ s.resolve c = .ok vc ∧ f vb vc = .error k ∧
      binaryOp f a b c s = .next (s.raised k)) ∨
    ((badDest a ∨ badValue b ∨ badValue c) ∧ binaryOp f a b c s = .next (s.raised .invalidOperand)) := by
  rw [badDest_iff, badValue_iff s b, badValue_iff s c]
  rcases destReg_cases a with ⟨i, rfl, ha⟩ | ha
  · rcases s.resolve_cases b with ⟨vb, hb⟩ | hb
    · rcases s.resolve_cases c with ⟨vc, hc⟩ | hc
      · cases hf : f vb vc with
        | ok r => exact .inl ⟨i, vb, vc, r, rfl, hb, hc, hf, by simp [binaryOp, hb, hc, hf, bind, Except.bind, pure, Except.pure]⟩
        | error k => exact .inr (.inl ⟨i, vb, vc, k, rfl, hb, hc, hf, by simp [binaryOp, hb, hc, hf, bind, Except.bind]⟩)
      · exact .inr (.inr ⟨.inr (.inr hc), by simp [binaryOp, hb, hc, bind, Except.bind]⟩)
    · exact .inr (.inr ⟨.inr (.inl hb), by simp [binaryOp, hb, bind, Except.bind]⟩)
  · exact .inr (.inr ⟨.inl ha, by simp [binaryOp, ha, bind, Except.bind]⟩)

/-- `binaryOp` with a result that no check refuses. -/
theorem binaryOp_total_cases (f : Word → Word → Word) (a b c : Operand) (s : State) :
    (∃ i vb vc, a = .reg i ∧ s.resolve b = .ok vb ∧ s.resolve c = .ok vc ∧
      binaryOp (fun vb vc => .ok (f vb vc)) a b c s = .next ((s.setReg i (f vb vc)).advance 4)) ∨
    ((badDest a ∨ badValue b ∨ badValue c) ∧
      binaryOp (fun vb vc => .ok (f vb vc)) a b c s = .next (s.raised .invalidOperand)) := by
  rcases binaryOp_cases (fun vb vc => .ok (f vb vc)) a b c s with
    ⟨i, vb, vc, r, ha, hb, hc, hf, h⟩ | ⟨i, vb, vc, k, ha, hb, hc, hf, h⟩ | h
  · cases hf; exact .inl ⟨i, vb, vc, ha, hb, hc, h⟩
  · cases hf
  · exact .inr h

/-- Everything a conditional jump can do. -/
theorem condJump_cases (taken : Word → Bool) (a b : Operand) (s : State) :
    (∃ c t, s.resolve a = .ok c ∧ s.resolve b = .ok t ∧
      condJump taken a b s = .next (if taken c then s.jump t else s.advance 3)) ∨
    ((badValue a ∨ badValue b) ∧ condJump taken a b s = .next (s.raised .invalidOperand)) := by
  rw [badValue_iff s a, badValue_iff s b]
  rcases s.resolve_cases a with ⟨c, ha⟩ | ha
  · rcases s.resolve_cases b with ⟨t, hb⟩ | hb
    · exact .inl ⟨c, t, ha, hb, by simp [condJump, ha, hb, bind, Except.bind, pure, Except.pure]⟩
    · exact .inr ⟨.inr hb, by simp [condJump, ha, hb, bind, Except.bind]⟩
  · exact .inr ⟨.inl ha, by simp [condJump, ha, bind, Except.bind]⟩

/-! ### The meanings -/

theorem execHalt_eq (s : State) : execHalt s = .next (s.halt.advance 1) := rfl

theorem execNoop_eq (s : State) : execNoop s = .next (s.advance 1) := rfl

theorem execSet_cases (a b : Operand) (s : State) :
    (∃ i v, a = .reg i ∧ s.resolve b = .ok v ∧ execSet a b s = .next ((s.setReg i v).advance 3)) ∨
    ((badDest a ∨ badValue b) ∧ execSet a b s = .next (s.raised .invalidOperand)) := by
  rw [badDest_iff, badValue_iff s b]
  rcases destReg_cases a with ⟨i, rfl, ha⟩ | ha
  · rcases s.resolve_cases b with ⟨v, hb⟩ | hb
    · exact .inl ⟨i, v, rfl, hb, by simp [execSet, hb, bind, Except.bind, pure, Except.pure]⟩
    · exact .inr ⟨.inr hb, by simp [execSet, hb, bind, Except.bind]⟩
  · exact .inr ⟨.inl ha, by simp [execSet, ha, bind, Except.bind]⟩

theorem execPush_cases (a : Operand) (s : State) :
    (∃ v, s.resolve a = .ok v ∧ s.hasRoom ∧
      execPush a s = .next ({ s with stack := s.stack ++ [v] }.advance 2)) ∨
    (∃ v, s.resolve a = .ok v ∧ ¬ s.hasRoom ∧ execPush a s = .next (s.raised .stackOverflow)) ∨
    (badValue a ∧ execPush a s = .next (s.raised .invalidOperand)) := by
  rw [badValue_iff s a]
  rcases s.resolve_cases a with ⟨v, ha⟩ | ha
  · rcases s.push_cases v with ⟨hr, hp⟩ | ⟨hr, hp⟩
    · exact .inl ⟨v, ha, hr, by simp [execPush, ha, hp, bind, Except.bind, pure, Except.pure]⟩
    · exact .inr (.inl ⟨v, ha, hr, by simp [execPush, ha, hp, bind, Except.bind]⟩)
  · exact .inr (.inr ⟨ha, by simp [execPush, ha, bind, Except.bind]⟩)

theorem execPop_cases (a : Operand) (s : State) :
    (∃ i rest v, a = .reg i ∧ s.stack = rest ++ [v] ∧
      execPop a s = .next (({ s with stack := rest }.setReg i v).advance 2)) ∨
    (∃ i, a = .reg i ∧ s.stack = [] ∧ execPop a s = .next (s.raised .stackUnderflow)) ∨
    (badDest a ∧ execPop a s = .next (s.raised .invalidOperand)) := by
  rw [badDest_iff]
  rcases destReg_cases a with ⟨i, rfl, ha⟩ | ha
  · rcases s.pop_cases with ⟨rest, v, hs, hp⟩ | ⟨hs, hp⟩
    · exact .inl ⟨i, rest, v, rfl, hs, by simp [execPop, hp, bind, Except.bind, pure, Except.pure]⟩
    · exact .inr (.inl ⟨i, rfl, hs, by simp [execPop, hp, bind, Except.bind]⟩)
  · exact .inr (.inr ⟨ha, by simp [execPop, ha, bind, Except.bind]⟩)

theorem execEq_cases (a b c : Operand) (s : State) :
    (∃ i vb vc, a = .reg i ∧ s.resolve b = .ok vb ∧ s.resolve c = .ok vc ∧
      execEq a b c s = .next ((s.setReg i (aluEq vb vc)).advance 4)) ∨
    ((badDest a ∨ badValue b ∨ badValue c) ∧ execEq a b c s = .next (s.raised .invalidOperand)) :=
  binaryOp_total_cases aluEq a b c s

theorem execGt_cases (a b c : Operand) (s : State) :
    (∃ i vb vc, a = .reg i ∧ s.resolve b = .ok vb ∧ s.resolve c = .ok vc ∧
      execGt a b c s = .next ((s.setReg i (aluGt vb vc)).advance 4)) ∨
    ((badDest a ∨ badValue b ∨ badValue c) ∧ execGt a b c s = .next (s.raised .invalidOperand)) :=
  binaryOp_total_cases aluGt a b c s

theorem execJmp_cases (a : Operand) (s : State) :
    (∃ t, s.resolve a = .ok t ∧ execJmp a s = .next (s.jump t)) ∨
    (badValue a ∧ execJmp a s = .next (s.raised .invalidOperand)) := by
  rw [badValue_iff s a]
  rcases s.resolve_cases a with ⟨t, ha⟩ | ha
  · exact .inl ⟨t, ha, by simp [execJmp, ha, bind, Except.bind, pure, Except.pure]⟩
  · exact .inr ⟨ha, by simp [execJmp, ha, bind, Except.bind]⟩

theorem execJt_cases (a b : Operand) (s : State) :
    (∃ c t, s.resolve a = .ok c ∧ s.resolve b = .ok t ∧
      execJt a b s = .next (if isNonZero c then s.jump t else s.advance 3)) ∨
    ((badValue a ∨ badValue b) ∧ execJt a b s = .next (s.raised .invalidOperand)) :=
  condJump_cases _ a b s

theorem execJf_cases (a b : Operand) (s : State) :
    (∃ c t, s.resolve a = .ok c ∧ s.resolve b = .ok t ∧
      execJf a b s = .next (if !isNonZero c then s.jump t else s.advance 3)) ∨
    ((badValue a ∨ badValue b) ∧ execJf a b s = .next (s.raised .invalidOperand)) :=
  condJump_cases _ a b s

theorem execAdd_cases (a b c : Operand) (s : State) :
    (∃ i vb vc, a = .reg i ∧ s.resolve b = .ok vb ∧ s.resolve c = .ok vc ∧
      execAdd a b c s = .next ((s.setReg i (aluAdd vb vc)).advance 4)) ∨
    ((badDest a ∨ badValue b ∨ badValue c) ∧ execAdd a b c s = .next (s.raised .invalidOperand)) :=
  binaryOp_total_cases aluAdd a b c s

theorem execMult_cases (a b c : Operand) (s : State) :
    (∃ i vb vc, a = .reg i ∧ s.resolve b = .ok vb ∧ s.resolve c = .ok vc ∧
      execMult a b c s = .next ((s.setReg i (aluMult vb vc)).advance 4)) ∨
    ((badDest a ∨ badValue b ∨ badValue c) ∧ execMult a b c s = .next (s.raised .invalidOperand)) :=
  binaryOp_total_cases aluMult a b c s

theorem execMod_cases (a b c : Operand) (s : State) :
    (∃ i vb vc, a = .reg i ∧ s.resolve b = .ok vb ∧ s.resolve c = .ok vc ∧ vc.toNat ≠ 0 ∧
      execMod a b c s = .next ((s.setReg i (reduce (vb.toNat % vc.toNat))).advance 4)) ∨
    (∃ i vb vc, a = .reg i ∧ s.resolve b = .ok vb ∧ s.resolve c = .ok vc ∧ vc.toNat = 0 ∧
      execMod a b c s = .next (s.raised .divideByZero)) ∨
    ((badDest a ∨ badValue b ∨ badValue c) ∧ execMod a b c s = .next (s.raised .invalidOperand)) := by
  rcases binaryOp_cases aluMod a b c s with
    ⟨i, vb, vc, r, ha, hb, hc, hf, h⟩ | ⟨i, vb, vc, k, ha, hb, hc, hf, h⟩ | h
  · by_cases hz : vc.toNat = 0
    · rw [aluMod, if_pos hz] at hf; cases hf
    · rw [aluMod, if_neg hz] at hf; cases hf; exact .inl ⟨i, vb, vc, ha, hb, hc, hz, h⟩
  · by_cases hz : vc.toNat = 0
    · rw [aluMod, if_pos hz] at hf; cases hf; exact .inr (.inl ⟨i, vb, vc, ha, hb, hc, hz, h⟩)
    · rw [aluMod, if_neg hz] at hf; cases hf
  · exact .inr (.inr h)

theorem execAnd_cases (a b c : Operand) (s : State) :
    (∃ i vb vc, a = .reg i ∧ s.resolve b = .ok vb ∧ s.resolve c = .ok vc ∧
      execAnd a b c s = .next ((s.setReg i (aluAnd vb vc)).advance 4)) ∨
    ((badDest a ∨ badValue b ∨ badValue c) ∧ execAnd a b c s = .next (s.raised .invalidOperand)) :=
  binaryOp_total_cases aluAnd a b c s

theorem execOr_cases (a b c : Operand) (s : State) :
    (∃ i vb vc, a = .reg i ∧ s.resolve b = .ok vb ∧ s.resolve c = .ok vc ∧
      execOr a b c s = .next ((s.setReg i (aluOr vb vc)).advance 4)) ∨
    ((badDest a ∨ badValue b ∨ badValue c) ∧ execOr a b c s = .next (s.raised .invalidOperand)) :=
  binaryOp_total_cases aluOr a b c s

theorem execNot_cases (a b : Operand) (s : State) :
    (∃ i vb, a = .reg i ∧ s.resolve b = .ok vb ∧ execNot a b s = .next ((s.setReg i (aluNot vb)).advance 3)) ∨
    ((badDest a ∨ badValue b) ∧ execNot a b s = .next (s.raised .invalidOperand)) := by
  rw [badDest_iff, badValue_iff s b]
  rcases destReg_cases a with ⟨i, rfl, ha⟩ | ha
  · rcases s.resolve_cases b with ⟨v, hb⟩ | hb
    · exact .inl ⟨i, v, rfl, hb, by simp [execNot, hb, bind, Except.bind, pure, Except.pure]⟩
    · exact .inr ⟨.inr hb, by simp [execNot, hb, bind, Except.bind]⟩
  · exact .inr ⟨.inl ha, by simp [execNot, ha, bind, Except.bind]⟩

theorem execRmem_cases (a b : Operand) (s : State) :
    (∃ i addr, a = .reg i ∧ s.resolve b = .ok addr ∧ (s.cell addr.toNat).toNat ≤ 32767 ∧
      execRmem a b s = .next ((s.setReg i (low15 (s.cell addr.toNat))).advance 3)) ∨
    (∃ i addr, a = .reg i ∧ s.resolve b = .ok addr ∧ 32767 < (s.cell addr.toNat).toNat ∧
      execRmem a b s = .next (s.raised .invalidWord)) ∨
    ((badDest a ∨ badValue b) ∧ execRmem a b s = .next (s.raised .invalidOperand)) := by
  rw [badDest_iff, badValue_iff s b]
  rcases destReg_cases a with ⟨i, rfl, ha⟩ | ha
  · rcases s.resolve_cases b with ⟨addr, hb⟩ | hb
    · rcases wordOfCell_cases (s.cell addr.toNat) with ⟨hv, hw⟩ | ⟨hv, hw⟩
      · exact .inl ⟨i, addr, rfl, hb, hv, by simp [execRmem, hb, hw, bind, Except.bind, pure, Except.pure]⟩
      · exact .inr (.inl ⟨i, addr, rfl, hb, hv, by simp [execRmem, hb, hw, bind, Except.bind]⟩)
    · exact .inr (.inr ⟨.inr hb, by simp [execRmem, hb, bind, Except.bind]⟩)
  · exact .inr (.inr ⟨.inl ha, by simp [execRmem, ha, bind, Except.bind]⟩)

theorem execWmem_cases (a b : Operand) (s : State) :
    (∃ addr v, s.resolve a = .ok addr ∧ s.resolve b = .ok v ∧
      execWmem a b s = .next ({ s with mem := s.mem.put addr.toNat (zext16 v) }.advance 3)) ∨
    ((badValue a ∨ badValue b) ∧ execWmem a b s = .next (s.raised .invalidOperand)) := by
  rw [badValue_iff s a, badValue_iff s b]
  rcases s.resolve_cases a with ⟨addr, ha⟩ | ha
  · rcases s.resolve_cases b with ⟨v, hb⟩ | hb
    · exact .inl ⟨addr, v, ha, hb, by simp [execWmem, ha, hb, bind, Except.bind, pure, Except.pure]⟩
    · exact .inr ⟨.inr hb, by simp [execWmem, ha, hb, bind, Except.bind]⟩
  · exact .inr ⟨.inl ha, by simp [execWmem, ha, bind, Except.bind]⟩

theorem execCall_cases (a : Operand) (s : State) :
    (∃ t, s.resolve a = .ok t ∧ s.pc + 2 ≤ 32767 ∧ s.hasRoom ∧
      execCall a s = .next ({ s with stack := s.stack ++ [BitVec.ofNat 15 (s.pc + 2)] }.jump t)) ∨
    (∃ t, s.resolve a = .ok t ∧ s.pc + 2 ≤ 32767 ∧ ¬ s.hasRoom ∧ execCall a s = .next (s.raised .stackOverflow)) ∨
    (∃ t, s.resolve a = .ok t ∧ 32767 < s.pc + 2 ∧ execCall a s = .next (s.raised .invalidAddress)) ∨
    (badValue a ∧ execCall a s = .next (s.raised .invalidOperand)) := by
  rw [badValue_iff s a]
  rcases s.resolve_cases a with ⟨t, ha⟩ | ha
  · rcases s.returnAddress_cases with ⟨hr, hra⟩ | ⟨hr, hra⟩
    · rcases s.push_cases (BitVec.ofNat 15 (s.pc + 2)) with ⟨hp, he⟩ | ⟨hp, he⟩
      · exact .inl ⟨t, ha, hr, hp, by simp [execCall, ha, hra, he, bind, Except.bind, pure, Except.pure]⟩
      · exact .inr (.inl ⟨t, ha, hr, hp, by simp [execCall, ha, hra, he, bind, Except.bind]⟩)
    · exact .inr (.inr (.inl ⟨t, ha, hr, by simp [execCall, ha, hra, bind, Except.bind]⟩))
  · exact .inr (.inr (.inr ⟨ha, by simp [execCall, ha, bind, Except.bind]⟩))

theorem execRet_cases (s : State) :
    (∃ rest v, s.stack = rest ++ [v] ∧ execRet s = .next ({ s with stack := rest }.jump v)) ∨
    (s.stack = [] ∧ execRet s = .next (s.raised .stackUnderflow)) := by
  rcases s.pop_cases with ⟨rest, v, hs, hp⟩ | ⟨hs, hp⟩
  · exact .inl ⟨rest, v, hs, by simp [execRet, hp, bind, Except.bind, pure, Except.pure]⟩
  · exact .inr ⟨hs, by simp [execRet, hp, bind, Except.bind]⟩

theorem execOut_cases (a : Operand) (s : State) :
    (∃ v, s.resolve a = .ok v ∧ execOut a s = .next ((s.emit v).advance 2)) ∨
    (badValue a ∧ execOut a s = .next (s.raised .invalidOperand)) := by
  rw [badValue_iff s a]
  rcases s.resolve_cases a with ⟨v, ha⟩ | ha
  · exact .inl ⟨v, ha, by simp [execOut, ha, bind, Except.bind, pure, Except.pure]⟩
  · exact .inr ⟨ha, by simp [execOut, ha, bind, Except.bind]⟩

theorem execIn_cases (a : Operand) (s : State) :
    (∃ i w, a = .reg i ∧ s.inCodes[s.inPos]? = some w ∧
      execIn a s = .next ((s.endInputWait.setReg i w).consumeInput.advance 2)) ∨
    (∃ i, a = .reg i ∧ s.inCodes[s.inPos]? = none ∧ s.inEnd = true ∧
      execIn a s = .next (s.endInputWait.raised .inputExhausted)) ∨
    (∃ i, a = .reg i ∧ s.inCodes[s.inPos]? = none ∧ s.inEnd = false ∧ execIn a s = .next s.holdInput) ∨
    (badDest a ∧ execIn a s = .next (s.raised .invalidOperand)) := by
  rw [badDest_iff]
  rcases destReg_cases a with ⟨i, rfl, ha⟩ | ha
  · rcases s.inputAnswer_cases with ⟨w, hc, h⟩ | ⟨hc, he, h⟩ | ⟨hc, he, h⟩
    · exact .inl ⟨i, w, rfl, hc, by simp [execIn, inputInto, h]⟩
    · exact .inr (.inl ⟨i, rfl, hc, he, by simp [execIn, inputInto, h]⟩)
    · exact .inr (.inr (.inl ⟨i, rfl, hc, he, by simp [execIn, inputInto, h]⟩))
  · exact .inr (.inr (.inr ⟨ha, by simp [execIn, ha]⟩))

end Sys2Proof.Machine
end

