-- ==== Sys2Proof/Laws/Effects.lean ====
section
/-! SUPPORT. The one case split over all instructions: each way in which `exec` answers a next state. An invariant or a
frame over every instruction is proved by cases on it, with no meaning unfolded. -/

namespace Sys2Proof.Machine

/-- Every way in which the instruction `i` in the state `s` answers a next state, with what each way writes. A written
register's value is left open here: the `_cases` lemma of the meaning says it (Laws/Exec.lean). -/
inductive Effect : Instr → State → State → Prop where
  | raised (i s k) : Effect i s (s.raised k)
  | inputEnded (a s) : Effect (.inp a) s (s.endInputWait.raised .inputExhausted)
  | held (a s) : Effect (.inp a) s s.holdInput
  | received (s r w) (h : s.inCodes[s.inPos]? = some w) : Effect (.inp (.reg r)) s ((s.endInputWait.setReg r w).consumeInput.advance 2)
  | halt (s) : Effect .halt s (s.halt.advance 1)
  | noop (s) : Effect .noop s (s.advance 1)
  | wrote (i : Instr) (s) (r w) (hi : i.opcode ∈ [.set, .eq, .gt, .add, .mult, .mod, .and, .or, .not, .rmem]) (hs : (Role.dest, Operand.reg r) ∈ i.slots) : Effect i s ((s.setReg r w).advance i.length)
  | push (a s v) (hr : s.hasRoom) : Effect (.push a) s ({ s with stack := s.stack ++ [v] }.advance 2)
  | pop (s r below v) (h : s.stack = below ++ [v]) : Effect (.pop (.reg r)) s (({ s with stack := below }.setReg r v).advance 2)
  | jmp (a s v) (h : s.resolve a = .ok v) : Effect (.jmp a) s (s.jump v)
  | jt (a b s c v) (h : s.resolve a = .ok c) (h' : s.resolve b = .ok v) : Effect (.jt a b) s (if isNonZero c then s.jump v else s.advance 3)
  | jf (a b s c v) (h : s.resolve a = .ok c) (h' : s.resolve b = .ok v) : Effect (.jf a b) s (if !isNonZero c then s.jump v else s.advance 3)
  | wmem (a b s x v) (h : s.resolve a = .ok x) : Effect (.wmem a b) s ({ s with mem := s.mem.put x.toNat (zext16 v) }.advance 3)
  | call (a s v) (h : s.resolve a = .ok v) (hr : s.hasRoom) : Effect (.call a) s ({ s with stack := s.stack ++ [BitVec.ofNat 15 (s.pc + 2)] }.jump v)
  | ret (s below v) (h : s.stack = below ++ [v]) : Effect .ret s ({ s with stack := below }.jump v)
  | out (a s v) : Effect (.out a) s ((s.emit v).advance 2)

/-- `exec` answers a next state in one of these ways only. -/
theorem effect_of_exec {i s t} (h : exec i s = .next t) : Effect i s t := by
  cases i with
  | halt => cases h; exact .halt s
  | noop => cases h; exact .noop s
  | set a b =>
    rcases execSet_cases a b s with ⟨i, v, rfl, hv, e⟩ | ⟨_, e⟩ <;> (simp only [exec] at h; rw [e] at h; cases h)
    · exact .wrote (.set (.reg i) b) s i v (by simp [Instr.opcode]) (by simp [Instr.slots])
    · exact .raised _ _ _
  | eq a b c =>
    rcases execEq_cases a b c s with ⟨i, v, w, rfl, _, _, e⟩ | ⟨_, e⟩ <;> (simp only [exec] at h; rw [e] at h; cases h)
    · exact .wrote (.eq (.reg i) b c) s i _ (by simp [Instr.opcode]) (by simp [Instr.slots])
    · exact .raised _ _ _
  | gt a b c =>
    rcases execGt_cases a b c s with ⟨i, v, w, rfl, _, _, e⟩ | ⟨_, e⟩ <;> (simp only [exec] at h; rw [e] at h; cases h)
    · exact .wrote (.gt (.reg i) b c) s i _ (by simp [Instr.opcode]) (by simp [Instr.slots])
    · exact .raised _ _ _
  | add a b c =>
    rcases execAdd_cases a b c s with ⟨i, v, w, rfl, _, _, e⟩ | ⟨_, e⟩ <;> (simp only [exec] at h; rw [e] at h; cases h)
    · exact .wrote (.add (.reg i) b c) s i _ (by simp [Instr.opcode]) (by simp [Instr.slots])
    · exact .raised _ _ _
  | mult a b c =>
    rcases execMult_cases a b c s with ⟨i, v, w, rfl, _, _, e⟩ | ⟨_, e⟩ <;> (simp only [exec] at h; rw [e] at h; cases h)
    · exact .wrote (.mult (.reg i) b c) s i _ (by simp [Instr.opcode]) (by simp [Instr.slots])
    · exact .raised _ _ _
  | and a b c =>
    rcases execAnd_cases a b c s with ⟨i, v, w, rfl, _, _, e⟩ | ⟨_, e⟩ <;> (simp only [exec] at h; rw [e] at h; cases h)
    · exact .wrote (.and (.reg i) b c) s i _ (by simp [Instr.opcode]) (by simp [Instr.slots])
    · exact .raised _ _ _
  | or a b c =>
    rcases execOr_cases a b c s with ⟨i, v, w, rfl, _, _, e⟩ | ⟨_, e⟩ <;> (simp only [exec] at h; rw [e] at h; cases h)
    · exact .wrote (.or (.reg i) b c) s i _ (by simp [Instr.opcode]) (by simp [Instr.slots])
    · exact .raised _ _ _
  | mod a b c =>
    rcases execMod_cases a b c s with ⟨i, v, w, rfl, _, _, _, e⟩ | ⟨_, _, _, _, _, _, _, e⟩ | ⟨_, e⟩ <;> (simp only [exec] at h; rw [e] at h; cases h)
    · exact .wrote (.mod (.reg i) b c) s i _ (by simp [Instr.opcode]) (by simp [Instr.slots])
    · exact .raised _ _ _
    · exact .raised _ _ _
  | not a b =>
    rcases execNot_cases a b s with ⟨i, v, rfl, hv, e⟩ | ⟨_, e⟩ <;> (simp only [exec] at h; rw [e] at h; cases h)
    · exact .wrote (.not (.reg i) b) s i _ (by simp [Instr.opcode]) (by simp [Instr.slots])
    · exact .raised _ _ _
  | rmem a b =>
    rcases execRmem_cases a b s with ⟨i, v, rfl, hv, _, e⟩ | ⟨_, _, _, _, _, e⟩ | ⟨_, e⟩ <;> (simp only [exec] at h; rw [e] at h; cases h)
    · exact .wrote (.rmem (.reg i) b) s i _ (by simp [Instr.opcode]) (by simp [Instr.slots])
    · exact .raised _ _ _
    · exact .raised _ _ _
  | push a =>
    rcases execPush_cases a s with ⟨v, _, hr, e⟩ | ⟨_, _, _, e⟩ | ⟨_, e⟩ <;> (simp only [exec] at h; rw [e] at h; cases h)
    · exact .push a s v hr
    · exact .raised _ _ _
    · exact .raised _ _ _
  | pop a =>
    rcases execPop_cases a s with ⟨i, below, v, rfl, hs, e⟩ | ⟨_, _, _, e⟩ | ⟨_, e⟩ <;> (simp only [exec] at h; rw [e] at h; cases h)
    · exact .pop s i below v hs
    · exact .raised _ _ _
    · exact .raised _ _ _
  | jmp a =>
    rcases execJmp_cases a s with ⟨v, hv, e⟩ | ⟨_, e⟩ <;> (simp only [exec] at h; rw [e] at h; cases h)
    · exact .jmp a s v hv
    · exact .raised _ _ _
  | jt a b =>
    rcases execJt_cases a b s with ⟨c, v, hc, hv, e⟩ | ⟨_, e⟩ <;> (simp only [exec] at h; rw [e] at h; injection h with h; subst h)
    · exact .jt a b s c v hc hv
    · exact .raised _ _ _
  | jf a b =>
    rcases execJf_cases a b s with ⟨c, v, hc, hv, e⟩ | ⟨_, e⟩ <;> (simp only [exec] at h; rw [e] at h; injection h with h; subst h)
    · exact .jf a b s c v hc hv
    · exact .raised _ _ _
  | wmem a b =>
    rcases execWmem_cases a b s with ⟨x, v, hx, hv, e⟩ | ⟨_, e⟩ <;> (simp only [exec] at h; rw [e] at h; cases h)
    · exact .wmem a b s x v hx
    · exact .raised _ _ _
  | call a =>
    rcases execCall_cases a s with ⟨v, hv, _, hr, e⟩ | ⟨_, _, _, _, e⟩ | ⟨_, _, _, e⟩ | ⟨_, e⟩ <;> (simp only [exec] at h; rw [e] at h; cases h)
    · exact .call a s v hv hr
    · exact .raised _ _ _
    · exact .raised _ _ _
    · exact .raised _ _ _
  | ret =>
    rcases execRet_cases s with ⟨below, v, hs, e⟩ | ⟨_, e⟩ <;> (simp only [exec] at h; rw [e] at h; cases h)
    · exact .ret s below v hs
    · exact .raised _ _ _
  | out a =>
    rcases execOut_cases a s with ⟨v, hv, e⟩ | ⟨_, e⟩ <;> (simp only [exec] at h; rw [e] at h; cases h)
    · exact .out a s v
    · exact .raised _ _ _
  | inp a =>
    rcases execIn_cases a s with ⟨r, w, rfl, hw, e⟩ | ⟨_, _, _, _, e⟩ | ⟨_, _, _, _, e⟩ | ⟨_, e⟩ <;> (simp only [exec] at h; rw [e] at h; cases h)
    · exact .received s r w hw
    · exact .inputEnded a s
    · exact .held a s
    · exact .raised _ _ _

end Sys2Proof.Machine
end

