-- ==== Sys2Proof/Laws/Step.lean ====
section
/-! SUPPORT. Everything a fetch and a step can do, and runs of several steps. -/

namespace Sys2Proof.Machine

/-- The operand words that follow the opcode word at `pc`. -/
def State.operandCells (s : State) (n : Nat) : List Cell := (List.range' (s.pc + 1) n).map s.cell

/-- Everything a fetch can do, in the order of its checks (R210, checks 1 to 3). -/
theorem State.fetchInstr_cases (s : State) :
    (32767 < s.pc ∧ s.fetchInstr = .error .invalidAddress) ∨
    (s.pc ≤ 32767 ∧ 21 < (s.cell s.pc).toNat ∧ s.fetchInstr = .error .invalidOpcode) ∨
    (∃ o, s.pc ≤ 32767 ∧ Opcode.ofNumber (s.cell s.pc).toNat = some o ∧ 32767 < s.pc + o.operandCount ∧
      s.fetchInstr = .error .invalidAddress) ∨
    (∃ o i, s.pc ≤ 32767 ∧ Opcode.ofNumber (s.cell s.pc).toNat = some o ∧ s.pc + o.operandCount ≤ 32767 ∧
      i.opcode = o ∧ decodeOperands o (s.operandCells o.operandCount) = .ok (i, []) ∧ s.fetchInstr = .ok i) := by
  by_cases hpc : s.pc ≤ 32767
  · have hr : s.memRead s.pc = .ok (s.cell s.pc) := s.memRead_of_lt (by simp; omega)
    cases ho : Opcode.ofNumber (s.cell s.pc).toNat with
    | none =>
      refine .inr (.inl ⟨hpc, ?_, ?_⟩)
      · by_contra hle
        obtain ⟨o, h⟩ := Opcode.ofNumber_of_le (n := (s.cell s.pc).toNat) (by omega)
        rw [h] at ho; cases ho
      · simp [State.fetchInstr, hr, operandCountOf, ho, bind, Except.bind]
    | some o =>
      by_cases hn : s.pc + o.operandCount ≤ 32767
      · have hs := s.readSlice_ok (s.pc + 1) o.operandCount (by simp; omega)
        rcases decodeOperands_cases o (s.operandCells o.operandCount) with ⟨i, rest, hd, hi, hl⟩ | ⟨_, hl⟩
        · have hnil : rest = [] := by
            apply List.eq_nil_of_length_eq_zero
            simp only [State.operandCells, List.length_map, List.length_range'] at hl
            omega
          subst hnil
          refine .inr (.inr (.inr ⟨o, i, hpc, rfl, hn, hi, hd, ?_⟩))
          simp only [State.operandCells] at hd
          simp [State.fetchInstr, hr, operandCountOf, ho, hs, decode, hd, bind, Except.bind]
        · simp [State.operandCells] at hl
      · refine .inr (.inr (.inl ⟨o, hpc, rfl, by omega, ?_⟩))
        have hs := s.readSlice_error (s.pc + 1) o.operandCount (by simp; omega) (by omega)
        simp [State.fetchInstr, hr, operandCountOf, ho, hs, bind, Except.bind]
  · refine .inl ⟨by omega, ?_⟩
    have hr : s.memRead s.pc = .error .invalidAddress := s.memRead_of_not_lt (by simp; omega)
    simp [State.fetchInstr, hr, bind, Except.bind]

/-- A fetch reads memory and the pc and nothing else (R88). -/
theorem State.fetchInstr_congr {s t : State} (hp : t.pc = s.pc) (hm : t.mem = s.mem) : t.fetchInstr = s.fetchInstr := by
  have hread : ∀ a, t.memRead a = s.memRead a := fun a => by simp [State.memRead, State.cell, hm]
  have hslice : ∀ n start, t.readSlice start n = s.readSlice start n := by
    intro n
    induction n with
    | zero => intro start; rfl
    | succ n ih => intro start; rw [State.readSlice, State.readSlice, hread, ih]
  simp only [State.fetchInstr, hp, hread, hslice]

theorem step_of_fetched {s : State} {i : Instr} (hs : s.status = .running) (h : s.fetchInstr = .ok i) :
    step s = exec i s := by
  simp [step, hs, h]

theorem step_of_fetch_fault {s : State} {k : FaultKind} (hs : s.status = .running) (h : s.fetchInstr = .error k) :
    step s = .next (s.raised k) := by
  simp [step, hs, h]

/-- A fetched instruction fits below the top of memory. -/
theorem State.pc_add_length_le {s : State} {i : Instr} (h : s.fetchInstr = .ok i) : s.pc + i.length ≤ 32768 := by
  rcases s.fetchInstr_cases with ⟨_, e⟩ | ⟨_, _, e⟩ | ⟨_, _, _, _, e⟩ | ⟨o, j, _, _, hn, hi, _, e⟩
  · rw [h] at e; cases e
  · rw [h] at e; cases e
  · rw [h] at e; cases e
  · rw [h] at e; cases e
    simp only [Instr.length, hi]
    omega

/-! ### Runs -/

theorem runFor_zero (s : State) : runFor 0 s = .next s := rfl

theorem runFor_succ_of_next {n : Nat} {s t : State} (h : step s = .next t) : runFor (n + 1) s = runFor n t := by
  have h' : Sys2Proof.core.step s = .next t := h
  simp only [runFor, Host.Core.run, h']
  rfl

end Sys2Proof.Machine
end

