-- ==== Sys2Proof/Laws/Faults.lean ====
section
/-! SUPPORT. When an instruction takes a fault: every way it can, with its cause (spec/60_exceptions.md R202 to R208). -/

namespace Sys2Proof.Machine

/-- The causes of the faults of one instruction, by kind (R202 to R208, R210 checks 4 to 6). -/
inductive FaultCause (i : Instr) (s : State) : FaultKind → Prop where
  | operand (p : Role × Operand) (hp : p ∈ i.slots) (h : badSlot p) : FaultCause i s .invalidOperand
  | returnAddress (a : Operand) (t : Word) (hi : i = .call a) (h : s.resolve a = .ok t) (hpc : 32767 < s.pc + 2) :
      FaultCause i s .invalidAddress
  | popEmpty (r : RegIndex) (hi : i = .pop (.reg r)) (h : s.stack = []) : FaultCause i s .stackUnderflow
  | retEmpty (hi : i = .ret) (h : s.stack = []) : FaultCause i s .stackUnderflow
  | divisor (r : RegIndex) (b c : Operand) (vb vc : Word) (hi : i = .mod (.reg r) b c) (hb : s.resolve b = .ok vb)
      (hc : s.resolve c = .ok vc) (h : vc.toNat = 0) : FaultCause i s .divideByZero
  | word (r : RegIndex) (b : Operand) (addr : Word) (hi : i = .rmem (.reg r) b) (hb : s.resolve b = .ok addr)
      (h : 32767 < (s.cell addr.toNat).toNat) : FaultCause i s .invalidWord
  | pushFull (a : Operand) (v : Word) (hi : i = .push a) (h : s.resolve a = .ok v) (hr : ¬ s.hasRoom) :
      FaultCause i s .stackOverflow
  | callFull (a : Operand) (t : Word) (hi : i = .call a) (h : s.resolve a = .ok t) (hpc : s.pc + 2 ≤ 32767)
      (hr : ¬ s.hasRoom) : FaultCause i s .stackOverflow

/-- `in` answered by End (R206). -/
def inputExhaustedAt (i : Instr) (s : State) : Prop :=
  ∃ r, i = .inp (.reg r) ∧ s.inCodes[s.inPos]? = none ∧ s.inEnd = true

/-- Everything an instruction can answer: no new fault, or a fault with its cause and nothing else changed, or the end
of the input. -/
theorem exec_fault_cases (i : Instr) (s : State) :
    (∃ t, exec i s = .next t ∧ t.faultKind = s.faultKind ∧ (t.status = s.status ∨ t.status = .halted)) ∨
    (∃ k, FaultCause i s k ∧ exec i s = .next (s.raised k)) ∨
    (inputExhaustedAt i s ∧ exec i s = .next (s.endInputWait.raised .inputExhausted)) := by
  have dvv : ∀ {a b c : Operand}, badDest a ∨ badValue b ∨ badValue c →
      ∃ p ∈ [(Role.dest, a), (Role.value, b), (Role.value, c)], badSlot p := by
    rintro a b c (h | h | h)
    · exact ⟨(.dest, a), by simp, h⟩
    · exact ⟨(.value, b), by simp, h⟩
    · exact ⟨(.value, c), by simp, h⟩
  have dv : ∀ {a b : Operand}, badDest a ∨ badValue b → ∃ p ∈ [(Role.dest, a), (Role.value, b)], badSlot p := by
    rintro a b (h | h)
    · exact ⟨(.dest, a), by simp, h⟩
    · exact ⟨(.value, b), by simp, h⟩
  have vv : ∀ {a b : Operand}, badValue a ∨ badValue b → ∃ p ∈ [(Role.value, a), (Role.value, b)], badSlot p := by
    rintro a b (h | h)
    · exact ⟨(.value, a), by simp, h⟩
    · exact ⟨(.value, b), by simp, h⟩
  cases i with
  | halt => exact .inl ⟨_, execHalt_eq s, rfl, .inr rfl⟩
  | noop => exact .inl ⟨_, execNoop_eq s, rfl, .inl rfl⟩
  | set a b =>
    rcases execSet_cases a b s with ⟨_, _, _, _, h⟩ | ⟨hb, h⟩
    · exact .inl ⟨_, h, rfl, .inl rfl⟩
    · obtain ⟨p, hp, hb⟩ := dv hb; exact .inr (.inl ⟨_, .operand p hp hb, h⟩)
  | push a =>
    rcases execPush_cases a s with ⟨_, _, _, h⟩ | ⟨v, hv, hr, h⟩ | ⟨hb, h⟩
    · exact .inl ⟨_, h, rfl, .inl rfl⟩
    · exact .inr (.inl ⟨_, .pushFull a v rfl hv hr, h⟩)
    · exact .inr (.inl ⟨_, .operand (.value, a) (by simp [Instr.slots]) hb, h⟩)
  | pop a =>
    rcases execPop_cases a s with ⟨_, _, _, _, _, h⟩ | ⟨r, ha, hs, h⟩ | ⟨hb, h⟩
    · exact .inl ⟨_, h, rfl, .inl rfl⟩
    · exact .inr (.inl ⟨_, .popEmpty r (by rw [ha]) hs, h⟩)
    · exact .inr (.inl ⟨_, .operand (.dest, a) (by simp [Instr.slots]) hb, h⟩)
  | eq a b c =>
    rcases execEq_cases a b c s with ⟨_, _, _, _, _, _, h⟩ | ⟨hb, h⟩
    · exact .inl ⟨_, h, rfl, .inl rfl⟩
    · obtain ⟨p, hp, hb⟩ := dvv hb; exact .inr (.inl ⟨_, .operand p hp hb, h⟩)
  | gt a b c =>
    rcases execGt_cases a b c s with ⟨_, _, _, _, _, _, h⟩ | ⟨hb, h⟩
    · exact .inl ⟨_, h, rfl, .inl rfl⟩
    · obtain ⟨p, hp, hb⟩ := dvv hb; exact .inr (.inl ⟨_, .operand p hp hb, h⟩)
  | jmp a =>
    rcases execJmp_cases a s with ⟨_, _, h⟩ | ⟨hb, h⟩
    · exact .inl ⟨_, h, rfl, .inl rfl⟩
    · exact .inr (.inl ⟨_, .operand (.value, a) (by simp [Instr.slots]) hb, h⟩)
  | jt a b =>
    rcases execJt_cases a b s with ⟨_, _, _, _, h⟩ | ⟨hb, h⟩
    · refine .inl ⟨_, h, ?_, .inl ?_⟩ <;> split <;> rfl
    · obtain ⟨p, hp, hb⟩ := vv hb; exact .inr (.inl ⟨_, .operand p hp hb, h⟩)
  | jf a b =>
    rcases execJf_cases a b s with ⟨_, _, _, _, h⟩ | ⟨hb, h⟩
    · refine .inl ⟨_, h, ?_, .inl ?_⟩ <;> split <;> rfl
    · obtain ⟨p, hp, hb⟩ := vv hb; exact .inr (.inl ⟨_, .operand p hp hb, h⟩)
  | add a b c =>
    rcases execAdd_cases a b c s with ⟨_, _, _, _, _, _, h⟩ | ⟨hb, h⟩
    · exact .inl ⟨_, h, rfl, .inl rfl⟩
    · obtain ⟨p, hp, hb⟩ := dvv hb; exact .inr (.inl ⟨_, .operand p hp hb, h⟩)
  | mult a b c =>
    rcases execMult_cases a b c s with ⟨_, _, _, _, _, _, h⟩ | ⟨hb, h⟩
    · exact .inl ⟨_, h, rfl, .inl rfl⟩
    · obtain ⟨p, hp, hb⟩ := dvv hb; exact .inr (.inl ⟨_, .operand p hp hb, h⟩)
  | mod a b c =>
    rcases execMod_cases a b c s with ⟨_, _, _, _, _, _, _, h⟩ | ⟨r, vb, vc, ha, hb, hc, hz, h⟩ | ⟨hb, h⟩
    · exact .inl ⟨_, h, rfl, .inl rfl⟩
    · exact .inr (.inl ⟨_, .divisor r b c vb vc (by rw [ha]) hb hc hz, h⟩)
    · obtain ⟨p, hp, hb⟩ := dvv hb; exact .inr (.inl ⟨_, .operand p hp hb, h⟩)
  | and a b c =>
    rcases execAnd_cases a b c s with ⟨_, _, _, _, _, _, h⟩ | ⟨hb, h⟩
    · exact .inl ⟨_, h, rfl, .inl rfl⟩
    · obtain ⟨p, hp, hb⟩ := dvv hb; exact .inr (.inl ⟨_, .operand p hp hb, h⟩)
  | or a b c =>
    rcases execOr_cases a b c s with ⟨_, _, _, _, _, _, h⟩ | ⟨hb, h⟩
    · exact .inl ⟨_, h, rfl, .inl rfl⟩
    · obtain ⟨p, hp, hb⟩ := dvv hb; exact .inr (.inl ⟨_, .operand p hp hb, h⟩)
  | not a b =>
    rcases execNot_cases a b s with ⟨_, _, _, _, h⟩ | ⟨hb, h⟩
    · exact .inl ⟨_, h, rfl, .inl rfl⟩
    · obtain ⟨p, hp, hb⟩ := dv hb; exact .inr (.inl ⟨_, .operand p hp hb, h⟩)
  | rmem a b =>
    rcases execRmem_cases a b s with ⟨_, _, _, _, _, h⟩ | ⟨r, addr, ha, hb, hv, h⟩ | ⟨hb, h⟩
    · exact .inl ⟨_, h, rfl, .inl rfl⟩
    · exact .inr (.inl ⟨_, .word r b addr (by rw [ha]) hb hv, h⟩)
    · obtain ⟨p, hp, hb⟩ := dv hb; exact .inr (.inl ⟨_, .operand p hp hb, h⟩)
  | wmem a b =>
    rcases execWmem_cases a b s with ⟨_, _, _, _, h⟩ | ⟨hb, h⟩
    · exact .inl ⟨_, h, rfl, .inl rfl⟩
    · obtain ⟨p, hp, hb⟩ := vv hb; exact .inr (.inl ⟨_, .operand p hp hb, h⟩)
  | call a =>
    rcases execCall_cases a s with ⟨_, _, _, _, h⟩ | ⟨t, ht, hp, hr, h⟩ | ⟨t, ht, hp, h⟩ | ⟨hb, h⟩
    · exact .inl ⟨_, h, rfl, .inl rfl⟩
    · exact .inr (.inl ⟨_, .callFull a t rfl ht hp hr, h⟩)
    · exact .inr (.inl ⟨_, .returnAddress a t rfl ht hp, h⟩)
    · exact .inr (.inl ⟨_, .operand (.value, a) (by simp [Instr.slots]) hb, h⟩)
  | ret =>
    rcases execRet_cases s with ⟨_, _, _, h⟩ | ⟨hs, h⟩
    · exact .inl ⟨_, h, rfl, .inl rfl⟩
    · exact .inr (.inl ⟨_, .retEmpty rfl hs, h⟩)
  | out a =>
    rcases execOut_cases a s with ⟨_, _, h⟩ | ⟨hb, h⟩
    · exact .inl ⟨_, h, rfl, .inl rfl⟩
    · exact .inr (.inl ⟨_, .operand (.value, a) (by simp [Instr.slots]) hb, h⟩)
  | inp a =>
    rcases execIn_cases a s with ⟨_, _, _, _, h⟩ | ⟨r, ha, hc, he, h⟩ | ⟨_, _, _, _, h⟩ | ⟨hb, h⟩
    · exact .inl ⟨_, h, rfl, .inl rfl⟩
    · exact .inr (.inr ⟨⟨r, by rw [ha], hc, he⟩, h⟩)
    · exact .inl ⟨_, h, rfl, .inl rfl⟩
    · exact .inr (.inl ⟨_, .operand (.dest, a) (by simp [Instr.slots]) hb, h⟩)

end Sys2Proof.Machine
end

