-- ==== Sys2Proof/Laws/HostPort.lean ====
section
/-! SUPPORT. Everything the host's transactions on a run can do: an answer to a request, a load, the presets. -/

namespace Sys2Proof.Machine

@[simp] theorem State.inputRequest_iff (s : State) :
    s.inputRequest = true ↔ s.inputWait = true ∧ s.status = .running := by
  simp [State.inputRequest]

/-- Everything an answer can do. -/
theorem answerRequest_cases (s answered : State) :
    (s.inputRequest = true ∧ answerRequest s answered = step answered) ∨
    (s.inputRequest = false ∧ answerRequest s answered = .refused .noInputRequest) := by
  cases h : s.inputRequest
  · exact .inr ⟨rfl, by simp only [answerRequest, h, Bool.false_eq_true, if_false]⟩
  · exact .inl ⟨rfl, by simp only [answerRequest, h, if_true]⟩

/-- Everything a load can do. -/
theorem load_cases (words : List Nat) (s : State) :
    (∃ cells, words.length ≤ 32768 ∧ cellsOfImage words = some cells ∧
      load words s = .next { s with mem := storeCells 0 cells s.mem }) ∨
    (32768 < words.length ∧ load words s = .refused .imageTooLong) ∨
    (words.length ≤ 32768 ∧ cellsOfImage words = none ∧ load words s = .refused .imageWordOutOfRange) := by
  by_cases hl : 32768 < words.length
  · exact .inr (.inl ⟨hl, if_pos hl⟩)
  · cases hc : cellsOfImage words with
    | none => exact .inr (.inr ⟨by omega, rfl, by simp [load, hl, hc]⟩)
    | some cells => exact .inl ⟨cells, by omega, rfl, by simp [load, hl, hc]⟩

/-- Presets write registers and nothing else. -/
theorem foldl_preset (ps : List (RegIndex × Word)) (s : State) :
    ps.foldl (fun s p => preset p.1 p.2 s) s =
      { s with regs := ps.foldl (fun regs p => regSet regs p.1.val p.2) s.regs } := by
  induction ps generalizing s with
  | nil => rfl
  | cons p ps ih => rw [List.foldl_cons, ih, List.foldl_cons]; rfl

end Sys2Proof.Machine
end

