-- ==== Sys2Proof/Laws/PerInstr.lean ====
section
/-! SUPPORT. Statements made per instruction: the length of an encoding is the one its opcode gives (spec/30_encoding.md
R79), and its first word is its opcode's number (R70). -/

/-- An encoding is `1 + operandCount` cells, the first of them the opcode word. -/
def Sys2Proof.Laws.EncodedLength.Statement (i : Sys2Proof.Instr) : Prop :=
  (Sys2Proof.encode i).length = i.length ∧ (Sys2Proof.encode i).head? = some i.opcode.cell

theorem Sys2Proof.Laws.EncodedLength.halt : Sys2Proof.Laws.EncodedLength.Statement (.halt) := ⟨rfl, rfl⟩
theorem Sys2Proof.Laws.EncodedLength.set (a b : Sys2Proof.Operand) : Sys2Proof.Laws.EncodedLength.Statement (.set a b) := ⟨rfl, rfl⟩
theorem Sys2Proof.Laws.EncodedLength.push (a : Sys2Proof.Operand) : Sys2Proof.Laws.EncodedLength.Statement (.push a) := ⟨rfl, rfl⟩
theorem Sys2Proof.Laws.EncodedLength.pop (a : Sys2Proof.Operand) : Sys2Proof.Laws.EncodedLength.Statement (.pop a) := ⟨rfl, rfl⟩
theorem Sys2Proof.Laws.EncodedLength.eq (a b c : Sys2Proof.Operand) : Sys2Proof.Laws.EncodedLength.Statement (.eq a b c) := ⟨rfl, rfl⟩
theorem Sys2Proof.Laws.EncodedLength.gt (a b c : Sys2Proof.Operand) : Sys2Proof.Laws.EncodedLength.Statement (.gt a b c) := ⟨rfl, rfl⟩
theorem Sys2Proof.Laws.EncodedLength.jmp (a : Sys2Proof.Operand) : Sys2Proof.Laws.EncodedLength.Statement (.jmp a) := ⟨rfl, rfl⟩
theorem Sys2Proof.Laws.EncodedLength.jt (a b : Sys2Proof.Operand) : Sys2Proof.Laws.EncodedLength.Statement (.jt a b) := ⟨rfl, rfl⟩
theorem Sys2Proof.Laws.EncodedLength.jf (a b : Sys2Proof.Operand) : Sys2Proof.Laws.EncodedLength.Statement (.jf a b) := ⟨rfl, rfl⟩
theorem Sys2Proof.Laws.EncodedLength.add (a b c : Sys2Proof.Operand) : Sys2Proof.Laws.EncodedLength.Statement (.add a b c) := ⟨rfl, rfl⟩
theorem Sys2Proof.Laws.EncodedLength.mult (a b c : Sys2Proof.Operand) : Sys2Proof.Laws.EncodedLength.Statement (.mult a b c) := ⟨rfl, rfl⟩
theorem Sys2Proof.Laws.EncodedLength.mod (a b c : Sys2Proof.Operand) : Sys2Proof.Laws.EncodedLength.Statement (.mod a b c) := ⟨rfl, rfl⟩
theorem Sys2Proof.Laws.EncodedLength.and (a b c : Sys2Proof.Operand) : Sys2Proof.Laws.EncodedLength.Statement (.and a b c) := ⟨rfl, rfl⟩
theorem Sys2Proof.Laws.EncodedLength.or (a b c : Sys2Proof.Operand) : Sys2Proof.Laws.EncodedLength.Statement (.or a b c) := ⟨rfl, rfl⟩
theorem Sys2Proof.Laws.EncodedLength.not (a b : Sys2Proof.Operand) : Sys2Proof.Laws.EncodedLength.Statement (.not a b) := ⟨rfl, rfl⟩
theorem Sys2Proof.Laws.EncodedLength.rmem (a b : Sys2Proof.Operand) : Sys2Proof.Laws.EncodedLength.Statement (.rmem a b) := ⟨rfl, rfl⟩
theorem Sys2Proof.Laws.EncodedLength.wmem (a b : Sys2Proof.Operand) : Sys2Proof.Laws.EncodedLength.Statement (.wmem a b) := ⟨rfl, rfl⟩
theorem Sys2Proof.Laws.EncodedLength.call (a : Sys2Proof.Operand) : Sys2Proof.Laws.EncodedLength.Statement (.call a) := ⟨rfl, rfl⟩
theorem Sys2Proof.Laws.EncodedLength.ret : Sys2Proof.Laws.EncodedLength.Statement (.ret) := ⟨rfl, rfl⟩
theorem Sys2Proof.Laws.EncodedLength.out (a : Sys2Proof.Operand) : Sys2Proof.Laws.EncodedLength.Statement (.out a) := ⟨rfl, rfl⟩
theorem Sys2Proof.Laws.EncodedLength.inp (a : Sys2Proof.Operand) : Sys2Proof.Laws.EncodedLength.Statement (.inp a) := ⟨rfl, rfl⟩
theorem Sys2Proof.Laws.EncodedLength.noop : Sys2Proof.Laws.EncodedLength.Statement (.noop) := ⟨rfl, rfl⟩
end

