-- ==== Sys2Proof/Tests/Slice0.lean ====
section
/-! SUPPORT. The model's own tests: words written out from spec/30_encoding.md and the vectors of spec/95_test_vectors.md
(a test's source is in its comment), the refusals of the well-formedness check, and for each statement with hypotheses a
concrete state and operands that meet them. -/

namespace Sys2Proof.Tests

open Sys2Proof Sys2Proof.Machine

/-! ### Helpers -/

/-- The next state, where there is one. -/
def nextOf (o : Host.Outcome State Fault Refusal) : Option State :=
  match o with
  | .next t => some t
  | .fault _ => none
  | .refused _ => none

theorem eq_next_of_nextOf {o : Host.Outcome State Fault Refusal} {t : State} (h : nextOf o = some t) : o = .next t := by
  cases o with
  | next u => simp only [nextOf, Option.some.injEq] at h; rw [h]
  | fault f => cases f
  | refused r => cases h

/-- The reset state with cells stored from `pc` up, and pc there. -/
def bootAt (pc : Nat) (cells : List Cell) : State := { State.reset with pc := pc, mem := storeCells pc cells [] }

/-- The reset state with an image from address 0. -/
def boot (cells : List Cell) : State := bootAt 0 cells

/-- One step, seen through a view of the state it answers. -/
def after {α : Type} (s : State) (view : State → α) : Option α := (nextOf (step s)).map view

/-! ### Decoding: every constructor, by a word written out from R71 and R73 -/

theorem test_decode_halt : decode [0] = .ok (.halt, []) := by decide
theorem test_decode_set : decode [1, 32768, 3] = .ok (.set (.reg 0) (.lit 3), []) := by decide
theorem test_decode_push : decode [2, 7] = .ok (.push (.lit 7), []) := by decide
theorem test_decode_pop : decode [3, 32769] = .ok (.pop (.reg 1), []) := by decide
theorem test_decode_eq : decode [4, 32769, 5, 32770] = .ok (.eq (.reg 1) (.lit 5) (.reg 2), []) := by decide
theorem test_decode_gt : decode [5, 32770, 3, 32773] = .ok (.gt (.reg 2) (.lit 3) (.reg 5), []) := by decide
theorem test_decode_jmp : decode [6, 32767] = .ok (.jmp (.lit 32767), []) := by decide
theorem test_decode_jt : decode [7, 32768, 6] = .ok (.jt (.reg 0) (.lit 6), []) := by decide
theorem test_decode_jf : decode [8, 0, 100] = .ok (.jf (.lit 0) (.lit 100), []) := by decide
theorem test_decode_add : decode [9, 32768, 32769, 4] = .ok (.add (.reg 0) (.reg 1) (.lit 4), []) := by decide
theorem test_decode_mult : decode [10, 32769, 6, 7] = .ok (.mult (.reg 1) (.lit 6) (.lit 7), []) := by decide
theorem test_decode_mod : decode [11, 32768, 10, 3] = .ok (.mod (.reg 0) (.lit 10) (.lit 3), []) := by decide
theorem test_decode_and : decode [12, 32768, 12, 10] = .ok (.and (.reg 0) (.lit 12) (.lit 10), []) := by decide
theorem test_decode_or : decode [13, 32775, 12, 32774] = .ok (.or (.reg 7) (.lit 12) (.reg 6), []) := by decide
theorem test_decode_not : decode [14, 32768, 32771] = .ok (.not (.reg 0) (.reg 3), []) := by decide
theorem test_decode_rmem : decode [15, 32770, 100] = .ok (.rmem (.reg 2) (.lit 100), []) := by decide
theorem test_decode_wmem : decode [16, 100, 32769] = .ok (.wmem (.lit 100) (.reg 1), []) := by decide
theorem test_decode_call : decode [17, 32772] = .ok (.call (.reg 4), []) := by decide
theorem test_decode_ret : decode [18] = .ok (.ret, []) := by decide
theorem test_decode_out : decode [19, 32768] = .ok (.out (.reg 0), []) := by decide
theorem test_decode_in : decode [20, 32771] = .ok (.inp (.reg 3), []) := by decide
theorem test_decode_noop : decode [21] = .ok (.noop, []) := by decide

/-- R83: a literal in a destination slot decodes, and is bad when it executes. -/
theorem test_decode_keeps_bad_slots : decode [1, 5, 32776] = .ok (.set (.lit 5) (.invalid 0), []) := by decide

/-- R74 at the ends of its ranges. -/
theorem test_operand_classes :
    [0, 32767, 32768, 32775, 32776, 65535].map decodeOperand =
      [.lit 0, .lit 32767, .reg 0, .reg 7, .invalid 0, .invalid 32759] := by decide

/-- R72, R83: 22, a register encoding and 65535 are no opcodes. -/
theorem test_decode_refuses_other_opcodes :
    [22, 32768, 65535].map (fun w => decode [w, 0, 0, 0]) = List.replicate 3 (.error .invalidOpcode) := by decide

theorem test_decode_refuses_too_few_words :
    decode [] = .error .noOpcodeWord ∧ decode [19] = .error .missingOperands ∧
    decode [9, 32768, 1] = .error .missingOperands := by decide

/-- The 22 rows of the table, each with operand words of zeros, as a single number. -/
theorem test_tableWords :
    (List.range 22).map (fun n => (decodeTableWord 16 n).map Instr.opcode) =
      [.halt, .set, .push, .pop, .eq, .gt, .jmp, .jt, .jf, .add, .mult, .mod, .and, .or, .not, .rmem, .wmem, .call, .ret,
        .out, .inp, .noop].map some := by decide

/-- A later cell's bits count on from the first cell's: `set r0, 3` as one number. -/
theorem test_tableWord_order :
    decodeTableWord 48 (1 + 32768 * 2 ^ 16 + 3 * 2 ^ 32) = some (.set (.reg 0) (.lit 3)) := by decide

theorem test_withFetchWord_runs_it :
    after (State.reset.withFetchWord 48 (1 + 32768 * 2 ^ 16 + 3 * 2 ^ 32)) (fun t => (t.regs[0], t.pc)) = some (3, 3) := by
  decide

/-! ### Well-formedness: one ill-formed term for each check (R75, R76, R83) -/

theorem test_wf_refuses_literal_destination : (Instr.set (.lit 5) (.lit 3)).wellFormed = false := by decide
theorem test_wf_refuses_invalid_destination : (Instr.pop (.invalid 0)).wellFormed = false := by decide
theorem test_wf_refuses_invalid_value : (Instr.add (.reg 0) (.lit 1) (.invalid 32759)).wellFormed = false := by decide
theorem test_wf_refuses_untaken_target : (Instr.jt (.lit 0) (.invalid 0)).wellFormed = false := by decide
theorem test_wf_accepts_register_and_literal : (Instr.add (.reg 7) (.lit 32767) (.reg 0)).wellFormed = true := by decide

/-! ### Fetch, decode and faults (V30) -/

/-- A view of a fault: status, kind and pc. -/
def faultView (t : State) : Status × Option FaultKind × Nat := (t.status, t.faultKind, t.pc)

/-- V30-1. -/
theorem test_opcode_22_faults : after (boot [22]) faultView = some (.faulted, some .invalidOpcode, 0) := by decide

/-- V30-3. -/
theorem test_opcode_register_faults : after (boot [32768]) faultView = some (.faulted, some .invalidOpcode, 0) := by decide

/-- V30-4. -/
theorem test_fetch_past_top_faults : after (bootAt 32768 []) faultView = some (.faulted, some .invalidAddress, 32768) := by decide

/-- V30-5. -/
theorem test_operands_past_top_fault : after (bootAt 32767 [19]) faultView = some (.faulted, some .invalidAddress, 32767) := by decide

/-- V30-6. -/
theorem test_decode_before_operand_fetch : after (bootAt 32767 [22]) faultView = some (.faulted, some .invalidOpcode, 32767) := by decide

/-- V30-7. -/
theorem test_add_at_top : after (bootAt 32764 [9, 32768, 1, 1]) (fun t => (t.regs[0], t.pc, t.status)) = some (2, 32768, .running) := by decide

/-- V30-8. -/
theorem test_three_words_of_four_at_top : after (bootAt 32765 [9, 32768, 1]) faultView = some (.faulted, some .invalidAddress, 32765) := by decide

/-- V30-10. -/
theorem test_halted_step_changes_nothing : after { boot [9, 32768, 1, 1] with status := .halted } id = some { boot [9, 32768, 1, 1] with status := .halted } := by decide

/-! ### One or two steps per instruction -/

/-- V40-1. -/
theorem test_halt : after (boot [0]) (fun t => (t.status, t.pc)) = some (.halted, 1) := by decide

/-- V40-3. -/
theorem test_noop_at_top : after (bootAt 32767 [21]) (fun t => (t.status, t.pc)) = some (.running, 32768) := by decide

/-- V41-2. -/
theorem test_set_register : after { boot [1, 32770, 32773] with regs := #v[0, 0, 0, 0, 0, 77, 0, 0] } (fun t => (t.regs, t.pc)) = some (#v[0, 0, 77, 0, 0, 77, 0, 0], 3) := by decide

/-- V41-4. -/
theorem test_set_literal_destination : after (boot [1, 5, 3]) faultView = some (.faulted, some .invalidOperand, 0) := by decide

/-- V41-7. -/
theorem test_push : after (boot [2, 7]) (fun t => (t.stack, t.pc)) = some ([7], 2) := by decide

/-- V41-10. -/
theorem test_push_overflow : after { boot [2, 2] with stackCapacity := .finite 1, stack := [1] } (fun t => (t.faultKind, t.stack)) = some (some .stackOverflow, [1]) := by decide

/-- V41-12. -/
theorem test_pop_takes_the_top : after { boot [3, 32769] with stack := [1, 2] } (fun t => (t.regs[1], t.stack, t.pc)) = some (2, [1], 2) := by decide

/-- V41-14. -/
theorem test_pop_operand_before_stack : after (boot [3, 5]) faultView = some (.faulted, some .invalidOperand, 0) := by decide

/-- V42-4. -/
theorem test_eq_literal_and_register : after { boot [4, 32768, 10, 32770] with regs := #v[0, 0, 10, 0, 0, 0, 0, 0] } (fun t => (t.regs[0], t.pc)) = some (1, 4) := by decide

/-- V42-2. -/
theorem test_eq_different : after { boot [4, 32769, 5, 6] with regs := #v[0, 9, 0, 0, 0, 0, 0, 0] } (fun t => t.regs[1]) = some 0 := by decide

/-- V42-8. -/
theorem test_gt_is_unsigned : after (boot [5, 32768, 32767, 0]) (fun t => t.regs[0]) = some 1 := by decide

/-- V42-7. -/
theorem test_gt_is_strict : after { boot [5, 32770, 5, 5] with regs := #v[0, 0, 7, 0, 0, 0, 0, 0] } (fun t => t.regs[2]) = some 0 := by decide

/-- V43-2. -/
theorem test_jmp_through_register : after { boot [6, 32769] with regs := #v[0, 500, 0, 0, 0, 0, 0, 0] } (fun t => t.pc) = some 500 := by decide

/-- V43-7. -/
theorem test_jt_taken : after (boot [7, 32767, 20]) (fun t => t.pc) = some 20 := by decide

/-- V43-8. -/
theorem test_jt_untaken_target_checked : after (boot [7, 0, 32776]) faultView = some (.faulted, some .invalidOperand, 0) := by decide

/-- V43-9. -/
theorem test_jf_taken : after (boot [8, 0, 100]) (fun t => t.pc) = some 100 := by decide

/-- V43-10. -/
theorem test_jf_falls_through : after (boot [8, 1, 100]) (fun t => t.pc) = some 3 := by decide

/-- V44-4. -/
theorem test_add_same_register : after { boot [9, 32768, 32768, 32768] with regs := #v[20000, 0, 0, 0, 0, 0, 0, 0] } (fun t => (t.regs[0], t.pc)) = some (7232, 4) := by decide

/-- V44-2. -/
theorem test_add_wraps : after (boot [9, 32768, 32767, 32767]) (fun t => t.regs[0]) = some 32766 := by decide

/-- V44-7. -/
theorem test_mult_largest : after (boot [10, 32768, 32767, 32767]) (fun t => t.regs[0]) = some 1 := by decide

/-- V44-9. -/
theorem test_mult_wraps : after (boot [10, 32768, 200, 200]) (fun t => t.regs[0]) = some 7232 := by decide

/-- V44-16. -/
theorem test_mod : after (boot [11, 32768, 32767, 2]) (fun t => t.regs[0]) = some 1 := by decide

/-- V44-17. -/
theorem test_mod_by_zero : after { boot [11, 32768, 10, 0] with regs := #v[8, 0, 0, 0, 0, 0, 0, 0] } (fun t => (t.faultKind, t.regs[0])) = some (some .divideByZero, 8) := by decide

/-- V44-21. -/
theorem test_and : after (boot [12, 32768, 32767, 21845]) (fun t => t.regs[0]) = some 21845 := by decide

/-- V44-24. -/
theorem test_or : after (boot [13, 32768, 21845, 10922]) (fun t => t.regs[0]) = some 32767 := by decide

/-- V44-29. -/
theorem test_not_same_register : after { boot [14, 32768, 32768] with regs := #v[12345, 0, 0, 0, 0, 0, 0, 0] } (fun t => (t.regs[0], t.pc)) = some (20422, 3) := by decide

/-- V45-4. -/
theorem test_rmem_of_a_register_encoding : after (boot [15, 32768, 1]) faultView = some (.faulted, some .invalidWord, 0) := by decide

/-- V45-5: the address is r0's old value 0. -/
theorem test_rmem_own_opcode : after (boot [15, 32768, 32768]) (fun t => (t.regs[0], t.pc)) = some (15, 3) := by decide

/-- V45-8: a write to its own operand cell. -/
theorem test_wmem : after (boot [16, 1, 5]) (fun t => (t.cell 0, t.cell 1, t.cell 2, t.pc)) = some (16, 5, 5, 3) := by decide

/-- V45-9. -/
theorem test_wmem_last_cell : after (boot [16, 32767, 32767]) (fun t => t.cell 32767) = some 32767 := by decide

/-- V46-1. -/
theorem test_call : after { bootAt 2 [17, 10] with stack := [7] } (fun t => (t.stack, t.pc)) = some ([7, 4], 10) := by decide

/-- V46-5. -/
theorem test_call_at_32766 : after (bootAt 32766 [17, 0]) faultView = some (.faulted, some .invalidAddress, 32766) := by decide

/-- V46-3. -/
theorem test_ret : after { boot [18] with stack := [7, 4] } (fun t => (t.stack, t.pc)) = some ([7], 4) := by decide

/-- V46-4. -/
theorem test_ret_empty : after (boot [18]) faultView = some (.faulted, some .stackUnderflow, 0) := by decide

/-- V47-1. -/
theorem test_out : after { boot [19, 32768] with regs := #v[69, 0, 0, 0, 0, 0, 0, 0] } (fun t => (t.output, t.pc)) = some ([69], 2) := by decide

/-- V47-4. -/
theorem test_out_invalid : after (boot [19, 32776]) faultView = some (.faulted, some .invalidOperand, 0) := by decide

/-- V47-5. -/
theorem test_in : after { boot [20, 32771] with inCodes := [104, 105] } (fun t => (t.regs[3], t.inPos, t.pc)) = some (104, 1, 2) := by decide

/-- V47-6. -/
theorem test_in_end : after { boot [20, 32771] with inEnd := true } (fun t => (t.faultKind, t.regs[3], t.inPos)) = some (some .inputExhausted, 0, 0) := by decide

/-- V47-8. -/
theorem test_in_held : after (boot [20, 32768]) id = some { boot [20, 32768] with inputWait := true } := by decide

/-! ### The host's transactions -/

/-- R53: the low byte comes first. -/
theorem test_imageOfBytes : imageOfBytes [9, 0, 0, 128] = some [9, 32768] ∧ imageOfBytes [1] = none := by decide

/-- R54: each decimal number is one word. -/
theorem test_imageOfText :
    imageOfText ['9', ',', '3', '2', '7', '6', '8', ',', '4'] = some [9, 32768, 4] ∧ imageOfText ['9', ','] = none := by
  decide

/-- L1-1's start: the image, and register 1 preset to 65. -/
theorem test_launch :
    (nextOf (launch ⟨.unbounded, false, false, [9, 32768, 32769, 4, 19, 32768], [(1, 65)], [], false⟩)).map
      (fun s => (s.cell 3, s.cell 6, s.regs[1], s.pc, s.status)) = some (4, 0, 65, 0, .running) := by decide

/-- R39, R191: the step of the held `in` completes when the host answers. -/
theorem test_answer_completes_the_held_in :
    (nextOf (answerChar 104 { boot [20, 32771] with inputWait := true })).map
      (fun t => (t.regs[3], t.inPos, t.pc, t.inputRequest)) = some (104, 1, 2, false) := by decide

/-- R7: an answer is given to a request. -/
theorem test_answer_without_request :
    answerChar 104 (boot [20, 32771]) = .refused .noInputRequest ∧
    answerEnd (boot [0]).halt = .refused .noInputRequest := ⟨rfl, rfl⟩

/-- R241: a word above 65535 has no load. -/
theorem test_load_refuses : load [65536] State.reset = .refused .imageWordOutOfRange := by rfl

/-- R222: registers in 2 rows of 4, the stack top first. -/
theorem test_dump :
    State.stackDump { State.reset with dumpEn := true, stack := [1, 2] } = some [2, 1] ∧
    (State.registerDump { State.reset with dumpEn := true }).map (fun rows => rows.map List.length) = some [4, 4] := by decide

/-- R222: the decoded instruction, before it executes. -/
theorem test_trace : State.traceView { boot [19, 65] with traceEn := true } = some (.out (.lit 65)) := by decide

/-! ### Witnesses: states and operands that meet the statements' hypotheses, each clause at a boundary -/

theorem badDest_lit_max : badDest (.lit 32767) := by unfold badDest; decide
theorem badDest_invalid_min : badDest (.invalid 0) := by unfold badDest; decide
theorem badValue_invalid_min : badValue (.invalid 0) := by unfold badValue; decide
theorem hasRoom_unbounded (s : State) (h : s.stackCapacity = .unbounded) : s.hasRoom := by
  unfold State.hasRoom; rw [h]; trivial

/-- A state with values in registers and a stack whose one place is free. -/
def sample : State :=
  { boot [21] with regs := #v[5, 32767, 0, 0, 0, 0, 0, 3], stack := [7], stackCapacity := .finite 2, inCodes := [104] }

/-- The same with its stack full. -/
def sampleFull : State := { sample with stack := [7, 8] }

theorem sample_hasRoom : sample.hasRoom := by show 2 ≤ 2; decide
theorem sampleFull_noRoom : ¬ sampleFull.hasRoom := by show ¬ 3 ≤ 2; decide

/-- Meets the hypotheses of EqWritesOneOrZero. -/
theorem witness_EqWritesOneOrZero :
    (∃ (a b c : Operand) (s : State) (i : RegIndex) (vb vc : Word), a = .reg i ∧ s.resolve b = .ok vb ∧ s.resolve c = .ok vc) ∧
    (badDest (.lit 32767) ∨ badValue (.invalid 0) ∨ badValue (.invalid 0)) := by
  exact ⟨⟨.reg 7, .lit 32767, .reg 1, sample, 7, 32767, 32767, rfl, rfl, by decide⟩, .inl badDest_lit_max⟩

/-- Meets the hypotheses of GtComparesUnsigned. -/
theorem witness_GtComparesUnsigned :
    (∃ (a b c : Operand) (s : State) (i : RegIndex) (vb vc : Word), a = .reg i ∧ s.resolve b = .ok vb ∧ s.resolve c = .ok vc) ∧
    (badDest (.lit 32767) ∨ badValue (.invalid 0) ∨ badValue (.invalid 0)) := by
  exact ⟨⟨.reg 7, .lit 32767, .reg 1, sample, 7, 32767, 32767, rfl, rfl, by decide⟩, .inl badDest_lit_max⟩

/-- Meets the hypotheses of AddIsModulo32768. -/
theorem witness_AddIsModulo32768 :
    (∃ (a b c : Operand) (s : State) (i : RegIndex) (vb vc : Word), a = .reg i ∧ s.resolve b = .ok vb ∧ s.resolve c = .ok vc) ∧
    (badDest (.lit 32767) ∨ badValue (.invalid 0) ∨ badValue (.invalid 0)) := by
  exact ⟨⟨.reg 7, .lit 32767, .reg 1, sample, 7, 32767, 32767, rfl, rfl, by decide⟩, .inl badDest_lit_max⟩

/-- Meets the hypotheses of MultIsModulo32768. -/
theorem witness_MultIsModulo32768 :
    (∃ (a b c : Operand) (s : State) (i : RegIndex) (vb vc : Word), a = .reg i ∧ s.resolve b = .ok vb ∧ s.resolve c = .ok vc) ∧
    (badDest (.lit 32767) ∨ badValue (.invalid 0) ∨ badValue (.invalid 0)) := by
  exact ⟨⟨.reg 7, .lit 32767, .reg 1, sample, 7, 32767, 32767, rfl, rfl, by decide⟩, .inl badDest_lit_max⟩

/-- Meets the hypotheses of AndIsBitwise. -/
theorem witness_AndIsBitwise :
    (∃ (a b c : Operand) (s : State) (i : RegIndex) (vb vc : Word), a = .reg i ∧ s.resolve b = .ok vb ∧ s.resolve c = .ok vc) ∧
    (badDest (.lit 32767) ∨ badValue (.invalid 0) ∨ badValue (.invalid 0)) := by
  exact ⟨⟨.reg 7, .lit 32767, .reg 1, sample, 7, 32767, 32767, rfl, rfl, by decide⟩, .inl badDest_lit_max⟩

/-- Meets the hypotheses of OrIsBitwise. -/
theorem witness_OrIsBitwise :
    (∃ (a b c : Operand) (s : State) (i : RegIndex) (vb vc : Word), a = .reg i ∧ s.resolve b = .ok vb ∧ s.resolve c = .ok vc) ∧
    (badDest (.lit 32767) ∨ badValue (.invalid 0) ∨ badValue (.invalid 0)) := by
  exact ⟨⟨.reg 7, .lit 32767, .reg 1, sample, 7, 32767, 32767, rfl, rfl, by decide⟩, .inl badDest_lit_max⟩

/-- Meets the hypotheses of ModWritesTheRemainder. -/
theorem witness_ModWritesTheRemainder :
    (∃ (a b c : Operand) (s : State) (i : RegIndex) (vb vc : Word), a = .reg i ∧ s.resolve b = .ok vb ∧ s.resolve c = .ok vc ∧ vc ≠ 0) ∧
    (∃ (a b c : Operand) (s : State) (i : RegIndex) (vb : Word), a = .reg i ∧ s.resolve b = .ok vb ∧ s.resolve c = .ok 0) ∧
    (badDest (.invalid 0) ∨ badValue (.lit 0) ∨ badValue (.lit 0)) := by
  exact ⟨⟨.reg 7, .lit 32767, .lit 1, sample, 7, 32767, 1, rfl, rfl, rfl, by decide⟩,
    ⟨.reg 0, .lit 5, .reg 2, sample, 0, 5, rfl, rfl, by decide⟩, .inl badDest_invalid_min⟩

/-- Meets the hypotheses of SetCopiesItsValue. -/
theorem witness_SetCopiesItsValue :
    (∃ (a b : Operand) (s : State) (i : RegIndex) (vb : Word), a = .reg i ∧ s.resolve b = .ok vb) ∧
    (badDest (.reg 0) ∨ badValue (.invalid 0)) := by
  exact ⟨⟨.reg 7, .reg 1, sample, 7, 32767, rfl, by decide⟩, .inr badValue_invalid_min⟩

/-- Meets the hypotheses of NotIsTheFifteenBitComplement. -/
theorem witness_NotIsTheFifteenBitComplement :
    (∃ (a b : Operand) (s : State) (i : RegIndex) (vb : Word), a = .reg i ∧ s.resolve b = .ok vb) ∧
    (badDest (.reg 0) ∨ badValue (.invalid 0)) := by
  exact ⟨⟨.reg 7, .reg 1, sample, 7, 32767, rfl, by decide⟩, .inr badValue_invalid_min⟩

/-- Meets the hypotheses of PushAppendsItsValue. -/
theorem witness_PushAppendsItsValue :
    (∃ (a : Operand) (s : State) (v : Word), s.resolve a = .ok v ∧ s.hasRoom) ∧
    (∃ (a : Operand) (s : State) (v : Word), s.resolve a = .ok v ∧ ¬ s.hasRoom) ∧ (∃ a, badValue a) := by
  exact ⟨⟨.reg 1, sample, 32767, by decide, sample_hasRoom⟩, ⟨.lit 0, sampleFull, 0, rfl, sampleFull_noRoom⟩,
    .invalid 0, badValue_invalid_min⟩

/-- Meets the hypotheses of PopMovesTheTopToItsRegister. -/
theorem witness_PopMovesTheTopToItsRegister :
    (∃ (a : Operand) (s : State) (i : RegIndex) (below : List Word) (v : Word), a = .reg i ∧ s.stack = below ++ [v]) ∧
    (∃ (a : Operand) (s : State) (i : RegIndex), a = .reg i ∧ s.stack = []) ∧ (∃ a, badDest a) := by
  exact ⟨⟨.reg 7, sample, 7, [], 7, rfl, rfl⟩, ⟨.reg 0, State.reset, 0, rfl, rfl⟩, .lit 32767, badDest_lit_max⟩

/-- Meets the hypotheses of JmpGoesToItsTarget. -/
theorem witness_JmpGoesToItsTarget :
    (∃ (a : Operand) (s : State) (v : Word), s.resolve a = .ok v) ∧ (∃ a, badValue a) := by
  exact ⟨⟨.reg 1, sample, 32767, by decide⟩, .invalid 0, badValue_invalid_min⟩

/-- Meets the hypotheses of OutEmitsItsValue. -/
theorem witness_OutEmitsItsValue :
    (∃ (a : Operand) (s : State) (v : Word), s.resolve a = .ok v) ∧ (∃ a, badValue a) := by
  exact ⟨⟨.reg 1, sample, 32767, by decide⟩, .invalid 0, badValue_invalid_min⟩

/-- Meets the hypotheses of JtJumpsIfNotZero. -/
theorem witness_JtJumpsIfNotZero :
    (∃ (a b : Operand) (s : State) (c t : Word), s.resolve a = .ok c ∧ s.resolve b = .ok t ∧ c = 0) ∧
    (∃ (a b : Operand) (s : State) (c t : Word), s.resolve a = .ok c ∧ s.resolve b = .ok t ∧ c ≠ 0) ∧
    (badValue (.lit 0) ∨ badValue (.invalid 0)) := by
  exact ⟨⟨.reg 2, .lit 6, sample, 0, 6, by decide, rfl, rfl⟩, ⟨.reg 1, .lit 6, sample, 32767, 6, by decide, rfl, by decide⟩,
    .inr badValue_invalid_min⟩

/-- Meets the hypotheses of JfJumpsIfZero. -/
theorem witness_JfJumpsIfZero :
    (∃ (a b : Operand) (s : State) (c t : Word), s.resolve a = .ok c ∧ s.resolve b = .ok t ∧ c = 0) ∧
    (∃ (a b : Operand) (s : State) (c t : Word), s.resolve a = .ok c ∧ s.resolve b = .ok t ∧ c ≠ 0) ∧
    (badValue (.lit 0) ∨ badValue (.invalid 0)) := by
  exact ⟨⟨.reg 2, .lit 6, sample, 0, 6, by decide, rfl, rfl⟩, ⟨.reg 1, .lit 6, sample, 32767, 6, by decide, rfl, by decide⟩,
    .inr badValue_invalid_min⟩

/-- Meets the hypotheses of RmemReadsACell. -/
theorem witness_RmemReadsACell :
    (∃ (a b : Operand) (s : State) (i : RegIndex) (addr : Word), a = .reg i ∧ s.resolve b = .ok addr ∧
      (s.cell addr.toNat).toNat ≤ 32767) ∧
    (∃ (a b : Operand) (s : State) (i : RegIndex) (addr : Word), a = .reg i ∧ s.resolve b = .ok addr ∧
      32767 < (s.cell addr.toNat).toNat) ∧
    (badDest (.lit 32767) ∨ badValue (.reg 0)) := by
  exact ⟨⟨.reg 7, .lit 32767, boot [15], 7, 32767, rfl, rfl, by decide⟩,
    ⟨.reg 0, .lit 1, boot [15, 32768, 1], 0, 1, rfl, rfl, by decide⟩, .inl badDest_lit_max⟩

/-- Meets the hypotheses of WmemWritesOneCell. -/
theorem witness_WmemWritesOneCell :
    (∃ (a b : Operand) (s : State) (addr v : Word), s.resolve a = .ok addr ∧ s.resolve b = .ok v) ∧
    (badValue (.lit 0) ∨ badValue (.invalid 0)) := by
  exact ⟨⟨.lit 32767, .reg 1, sample, 32767, 32767, rfl, by decide⟩, .inr badValue_invalid_min⟩

/-- Meets the hypotheses of CallPushesTheReturnAddress. -/
theorem witness_CallPushesTheReturnAddress :
    (∃ (a : Operand) (s : State) (t : Word), s.resolve a = .ok t ∧ s.pc + 2 ≤ 32767 ∧ s.hasRoom) ∧
    (∃ (a : Operand) (s : State) (t : Word), s.resolve a = .ok t ∧ s.pc + 2 ≤ 32767 ∧ ¬ s.hasRoom) ∧
    (∃ (a : Operand) (s : State) (t : Word), s.resolve a = .ok t ∧ 32767 < s.pc + 2) ∧ (∃ a, badValue a) := by
  exact ⟨⟨.lit 10, { sample with pc := 32765 }, 10, rfl, by decide, sample_hasRoom⟩, ⟨.lit 10, sampleFull, 10, rfl, by decide, sampleFull_noRoom⟩,
    ⟨.lit 0, bootAt 32766 [17, 0], 0, rfl, by decide⟩, .invalid 0, badValue_invalid_min⟩

/-- Meets the hypotheses of RetPopsThePc. -/
theorem witness_RetPopsThePc :
    (∃ (s : State) (below : List Word) (v : Word), s.stack = below ++ [v]) ∧ (∃ s : State, s.stack = []) := by
  exact ⟨⟨sampleFull, [7], 8, rfl⟩, State.reset, rfl⟩

/-- Meets the hypotheses of InConsumesOneCode. -/
theorem witness_InConsumesOneCode :
    (∃ (a : Operand) (s : State) (i : RegIndex) (w : Word), a = .reg i ∧ s.inCodes[s.inPos]? = some w) ∧
    (∃ (a : Operand) (s : State) (i : RegIndex), a = .reg i ∧ s.inCodes[s.inPos]? = none ∧ s.inEnd = true) ∧
    (∃ (a : Operand) (s : State) (i : RegIndex), a = .reg i ∧ s.inCodes[s.inPos]? = none ∧ s.inEnd = false) ∧
    (∃ a, badDest a) := by
  exact ⟨⟨.reg 7, sample, 7, 104, rfl, rfl⟩, ⟨.reg 0, { sample with inPos := 1, inEnd := true }, 0, rfl, rfl, rfl⟩,
    ⟨.reg 0, State.reset, 0, rfl, rfl, rfl⟩, .lit 32767, badDest_lit_max⟩

/-- Meets the hypotheses of DecodedCellsAreTheEncoding. -/
theorem witness_DecodedCellsAreTheEncoding :
    ∃ (ws : List Cell) (i : Instr) (rest : List Cell), decode ws = .ok (i, rest) := by
  exact ⟨[9, 32775, 32776, 32767, 5], .add (.reg 7) (.invalid 0) (.lit 32767), [5], by decide⟩

/-- Meets the hypotheses of OpcodeWordSelectsItsRowOrFaults. -/
theorem witness_OpcodeWordSelectsItsRowOrFaults :
    (21 : Cell).toNat ≤ 21 ∧ 21 < (22 : Cell).toNat ∧
    ∃ s : State, s.status = .running ∧ s.pc ≤ 32767 ∧ 21 < (s.cell s.pc).toNat := by
  exact ⟨by decide, by decide, bootAt 32767 [22], rfl, by decide, by decide⟩

/-- Meets the hypotheses of OperandSlotsFallIntoThreeClasses. -/
theorem witness_OperandSlotsFallIntoThreeClasses :
    (32767 : Cell).toNat ≤ 32767 ∧ (32768 ≤ (32775 : Cell).toNat ∧ (32775 : Cell).toNat ≤ 32775) ∧
    32776 ≤ (32776 : Cell).toNat := by
  decide

/-- Meets the hypotheses of ValueOperandResolvesByEncoding. -/
theorem witness_ValueOperandResolvesByEncoding :
    (32767 : Cell).toNat ≤ 32767 ∧ (32775 : Cell).toNat = 32768 + (7 : RegIndex).val ∧ 32776 ≤ (32776 : Cell).toNat ∧
    (sample.resolve (decodeOperand 32769) = .ok 32767) := by
  decide

/-- Meets the hypotheses of DestinationOperandNamesItsRegister. -/
theorem witness_DestinationOperandNamesItsRegister :
    (32768 : Cell).toNat = 32768 + (0 : RegIndex).val ∧
    ¬ (32768 ≤ (32767 : Cell).toNat ∧ (32767 : Cell).toNat ≤ 32775) ∧
    ¬ (32768 ≤ (32776 : Cell).toNat ∧ (32776 : Cell).toNat ≤ 32775) := by
  decide

/-- Meets the hypotheses of StepRunsTheInstructionAtPc. -/
theorem witness_StepRunsTheInstructionAtPc :
    ∃ (s : State) (i : Instr), s.status = .running ∧
      ∀ (k : Nat) (h : k < (encode i).length), s.pc + k ≤ 32767 ∧ s.cell (s.pc + k) = (encode i)[k] := by
  exact ⟨bootAt 32764 [9, 32768, 1, 1], .add (.reg 0) (.lit 1) (.lit 1), rfl, by decide⟩

/-- Meets the hypotheses of EndedStatesNeverChange. -/
theorem witness_EndedStatesNeverChange :
    (∃ s : State, s.ended ∧ s.status = .halted) ∧ (∃ s : State, s.ended ∧ s.status = .faulted) := by
  exact ⟨⟨boot [0] |>.halt, .inl rfl, rfl⟩, ⟨State.raised (boot [22]) .invalidOpcode, .inr rfl, rfl⟩⟩

/-- Meets the hypotheses of FaultsArePrecise. -/
theorem witness_FaultsArePrecise :
    ∃ s t : State, s.status = .running ∧ step s = .next t ∧ t.status = .faulted := by
  exact ⟨boot [22], (boot [22]).raised .invalidOpcode, rfl, eq_next_of_nextOf (by decide), rfl⟩

/-- Meets the hypotheses of InvalidOpcodeArisesExactly. -/
theorem witness_InvalidOpcodeArisesExactly :
    ∃ s : State, s.status = .running ∧ step s = .next (s.raised .invalidOpcode) ∧
      s.pc ≤ 32767 ∧ 22 ≤ (s.cell s.pc).toNat := by
  exact ⟨bootAt 32767 [22], rfl, eq_next_of_nextOf (by decide), by decide, by decide⟩

/-- Meets the hypotheses of InvalidOperandArisesExactly. -/
theorem witness_InvalidOperandArisesExactly :
    ∃ s : State, s.status = .running ∧ step s = .next (s.raised .invalidOperand) ∧
      ∃ i, s.fetchInstr = .ok i ∧ ∃ p ∈ i.slots, badSlot p := by
  exact ⟨boot [20, 5], rfl, eq_next_of_nextOf (by decide), .inp (.lit 5), by decide, (.dest, .lit 5), by decide, by unfold badSlot badDest; decide⟩

/-- Meets the hypotheses of DivideByZeroArisesExactly. -/
theorem witness_DivideByZeroArisesExactly :
    ∃ s : State, s.status = .running ∧ step s = .next (s.raised .divideByZero) ∧
      ∃ i b c vb, s.fetchInstr = .ok (.mod (.reg i) b c) ∧ s.resolve b = .ok vb ∧ s.resolve c = .ok 0 := by
  exact ⟨boot [11, 32768, 10, 32769], rfl, eq_next_of_nextOf (by decide), 0, .lit 10, .reg 1, 10, by decide, rfl, by decide⟩

/-- Meets the hypotheses of InputExhaustedArisesExactly. -/
theorem witness_InputExhaustedArisesExactly :
    ∃ s : State, s.status = .running ∧ step s = .next (s.raised .inputExhausted) ∧
      ∃ i, s.fetchInstr = .ok (.inp (.reg i)) ∧ s.inCodes[s.inPos]? = none ∧ s.inEnd = true := by
  exact ⟨{ boot [20, 32775] with inEnd := true }, rfl, eq_next_of_nextOf (by decide), 7, by decide, rfl, rfl⟩

/-- Meets the hypotheses of InvalidWordArisesExactly. -/
theorem witness_InvalidWordArisesExactly :
    ∃ s : State, s.status = .running ∧ step s = .next (s.raised .invalidWord) ∧
      ∃ i b addr, s.fetchInstr = .ok (.rmem (.reg i) b) ∧ s.resolve b = .ok addr ∧ 32768 ≤ (s.cell addr.toNat).toNat := by
  exact ⟨boot [15, 32768, 1], rfl, eq_next_of_nextOf (by decide), 0, .lit 1, 1, by decide, rfl, by decide⟩

/-- Meets the hypotheses of StackOverflowArisesExactly. -/
theorem witness_StackOverflowArisesExactly :
    ∃ s : State, s.status = .running ∧ step s = .next (s.raised .stackOverflow) ∧
      ¬ s.hasRoom ∧ ∃ a, ¬ badValue a ∧ s.fetchInstr = .ok (.push a) := by
  exact ⟨{ sampleFull with mem := storeCells 0 [2, 1] [] }, rfl, eq_next_of_nextOf (by decide), sampleFull_noRoom, .lit 1, not_badValue_lit 1, by decide⟩

/-- Meets the hypotheses of StackUnderflowArisesExactly. -/
theorem witness_StackUnderflowArisesExactly :
    (∃ s : State, s.status = .running ∧ step s = .next (s.raised .stackUnderflow) ∧ s.stack = [] ∧ s.fetchInstr = .ok .ret) ∧
    (∃ s : State, s.status = .running ∧ step s = .next (s.raised .stackUnderflow) ∧ s.stack = [] ∧
      ∃ r, s.fetchInstr = .ok (.pop (.reg r))) := by
  exact ⟨⟨boot [18], rfl, eq_next_of_nextOf (by decide), rfl, by decide⟩,
    ⟨boot [3, 32775], rfl, eq_next_of_nextOf (by decide), rfl, 7, by decide⟩⟩

/-- Meets the hypotheses of InvalidAddressArisesExactly. -/
theorem witness_InvalidAddressArisesExactly :
    (∃ s : State, s.status = .running ∧ 32767 < s.pc) ∧
    (∃ s : State, s.status = .running ∧ s.pc ≤ 32767 ∧ ∃ o, Opcode.ofNumber (s.cell s.pc).toNat = some o ∧
      32767 < s.pc + o.operandCount) ∧
    (∃ s : State, s.status = .running ∧ s.pc = 32766 ∧ ∃ a, s.fetchInstr = .ok (.call a) ∧ ¬ badValue a) := by
  exact ⟨⟨bootAt 32768 [], rfl, by decide⟩, ⟨bootAt 32767 [19], rfl, by decide, .out, by decide, by decide⟩,
    ⟨bootAt 32766 [17, 0], rfl, rfl, .lit 0, by decide, not_badValue_lit 0⟩⟩

/-- Meets the hypotheses of OnlyTwelveInstructionsWriteRegisters. -/
theorem witness_OnlyTwelveInstructionsWriteRegisters :
    (∃ (i : Instr) (s t : State) (r : RegIndex), exec i s = .next t ∧ t.regs[r] ≠ s.regs[r]) ∧ (1 : RegIndex) ≠ 0 := by
  exact ⟨⟨.set (.reg 7) (.lit 1), sample, (sample.setReg 7 1).advance 3, 7, eq_next_of_nextOf (by decide), by decide⟩, by decide⟩

/-- Meets the hypotheses of OnlyFourInstructionsTouchTheStack. -/
theorem witness_OnlyFourInstructionsTouchTheStack :
    (∃ (i : Instr) (s t : State), exec i s = .next t ∧ i.opcode = .push ∧ t.stack ≠ s.stack) ∧
    (∃ (i : Instr) (s t : State), exec i s = .next t ∧ i.opcode = .ret ∧ t.stack ≠ s.stack) ∧
    (∃ (i : Instr) (s t : State), exec i s = .next t ∧ i.opcode = .wmem) := by
  exact ⟨⟨.push (.lit 1), sample, { sample with stack := [7, 1], pc := 2 }, eq_next_of_nextOf (by decide), rfl, by decide⟩,
    ⟨.ret, sample, { sample with stack := [], pc := 7 }, eq_next_of_nextOf (by decide), rfl, by decide⟩,
    ⟨.wmem (.lit 0) (.lit 0), sample, { sample with mem := [], pc := 3 }, eq_next_of_nextOf (by decide), rfl⟩⟩

/-- Meets the hypotheses of OnlyWmemWritesMemory. -/
theorem witness_OnlyWmemWritesMemory :
    (∃ (i : Instr) (s t : State), exec i s = .next t ∧ i.opcode ≠ .wmem) ∧
    (∃ (i : Instr) (s t : State) (a b : Operand) (x : Nat), exec i s = .next t ∧ i = .wmem a b ∧
      ∀ addr, s.resolve a = .ok addr → x ≠ addr.toNat) := by
  exact ⟨⟨.noop, sample, sample.advance 1, rfl, by decide⟩,
    ⟨.wmem (.lit 0) (.lit 0), sample, { sample with mem := [], pc := 3 }, .lit 0, .lit 0, 1, eq_next_of_nextOf (by decide), rfl,
      by intro addr h; cases h; decide⟩⟩

/-- Meets the hypotheses of OnlyOutAndInReachTheChannels. -/
theorem witness_OnlyOutAndInReachTheChannels :
    (∃ (s t : State), exec .noop s = .next t) ∧
    (∃ (s t : State), exec (.out (.lit 3)) s = .next t ∧ t.output ≠ s.output) ∧
    (∃ (s t : State), exec (.inp (.reg 0)) s = .next t ∧ t.inPos ≠ s.inPos) := by
  exact ⟨⟨sample, sample.advance 1, rfl⟩,
    ⟨sample, (sample.emit 3).advance 2, eq_next_of_nextOf (by decide), by decide⟩,
    ⟨sample, ((sample.setReg 0 104).consumeInput).advance 2, eq_next_of_nextOf (by decide), by decide⟩⟩

/-- Meets the hypotheses of PcFollowsTheSequencer. -/
theorem witness_PcFollowsTheSequencer :
    (∃ s t : State, s.status = .running ∧ exec (.jt (.lit 0) (.invalid 0)) s = .next t ∧ t.status = .faulted) ∧
    (∃ s t : State, s.status = .running ∧ exec (.jt (.lit 32767) (.lit 9)) s = .next t ∧ t.status ≠ .faulted) := by
  exact ⟨⟨sample, sample.raised .invalidOperand, rfl, eq_next_of_nextOf (by decide), rfl⟩,
    ⟨sample, sample.jump 9, rfl, eq_next_of_nextOf (by decide), by decide⟩⟩

/-- Meets the hypotheses of TraceAndDumpHaveNoEffect. -/
theorem witness_TraceAndDumpHaveNoEffect :
    ∃ s t : State, step s = .next t ∧ t ≠ s := by
  exact ⟨sample, sample.advance 1, eq_next_of_nextOf (by decide), by decide⟩

/-- Meets the hypotheses of EveryStepKeepsTheInvariant. -/
theorem witness_EveryStepKeepsTheInvariant :
    ∃ s t : State, s.Inv ∧ step s = .next t ∧ t ≠ s := by
  refine ⟨sample, sample.advance 1, ⟨by decide, by decide, by decide, ?_, ?_, by decide, by decide⟩,
    eq_next_of_nextOf (by decide), by decide⟩
  · show 0 < 2; decide
  · show 1 ≤ 2; decide

/-- Meets the hypotheses of HostPortCodes. -/
theorem witness_HostPortCodes :
    ∃ s : State, s.Inv ∧ s.pc = 32768 := by
  refine ⟨{ sample with pc := 32768 }, ⟨by decide, by decide, by decide, ?_, ?_, by decide, by decide⟩, rfl⟩
  · show 0 < 2; decide
  · show 1 ≤ 2; decide

/-- Meets the hypotheses of ResetMeetsTheInvariant. -/
theorem witness_ResetMeetsTheInvariant :
    StackCapacity.positive (.finite 1) ∧ StackCapacity.positive .unbounded := by
  exact ⟨by show 0 < 1; decide, trivial⟩

/-- Meets the hypotheses of EveryReachableStateMeetsTheInvariant. -/
theorem witness_EveryReachableStateMeetsTheInvariant :
    ∃ s : State, Reachable s ∧ s.status = .halted := by
  have h : Reachable (State.construct (.finite 1) true false) :=
    .launched ⟨.finite 1, true, false, [], [], [], false⟩ _ (by show 0 < 1; decide) rfl
  exact ⟨(State.construct (.finite 1) true false).halt.advance 1, .stepped _ _ h (eq_next_of_nextOf (by decide)), rfl⟩

/-- Meets the hypotheses of LaunchPlacesTheImage. -/
theorem witness_LaunchPlacesTheImage :
    (∃ l : Launch, l.image.length ≤ 32768 ∧ (∀ w ∈ l.image, w ≤ 65535) ∧ l.image ≠ []) ∧
    (∃ l : Launch, 32768 < l.image.length) ∧
    (∃ l : Launch, l.image.length ≤ 32768 ∧ ∃ w ∈ l.image, 65535 < w) := by
  exact ⟨⟨⟨.unbounded, false, false, [65535, 0], [(7, 1)], [104], true⟩, by decide, by decide, by decide⟩,
    ⟨⟨.unbounded, false, false, List.replicate 32769 0, [], [], false⟩, by show 32768 < (List.replicate 32769 0).length; rw [List.length_replicate]; omega⟩,
    ⟨⟨.unbounded, false, false, [65536], [], [], false⟩, by decide, 65536, by decide, by decide⟩⟩

/-- Meets the hypotheses of PopAfterPushGivesTheValueBack. -/
theorem witness_PopAfterPushGivesTheValueBack :
    ∃ (s u : State) (a : Operand) (v : Word), s.hasRoom ∧ s.resolve a = .ok v ∧ u.stack = s.stack ++ [v] ∧ u.regs ≠ s.regs := by
  exact ⟨sample, { State.reset with stack := [7, 32767] }, .reg 1, 32767, sample_hasRoom, by decide, rfl, by decide⟩

/-- Meets the hypotheses of RetAfterCallResumesAfterTheCall. -/
theorem witness_RetAfterCallResumesAfterTheCall :
    ∃ (s : State) (a : Operand) (v : Word), s.resolve a = .ok v ∧ s.pc + 2 ≤ 32767 ∧ s.hasRoom := by
  exact ⟨{ sample with pc := 32765 }, .lit 10, 10, rfl, by decide, sample_hasRoom⟩

/-- Meets the hypotheses of SubtractionByComplement. -/
theorem witness_SubtractionByComplement :
    ∃ (s : State) (b c : Operand) (vb vc : Word) (r : RegIndex), s.resolve b = .ok vb ∧ s.resolve c = .ok vc ∧ b ≠ .reg r := by
  exact ⟨sample, .lit 0, .reg 1, 0, 32767, 1, rfl, by decide, by decide⟩

/-- Meets the hypotheses of StoreOverTheNextOpcodeIsFetched. -/
theorem witness_StoreOverTheNextOpcodeIsFetched :
    (∃ (s : State) (a b : Operand) (addr : Word), s.status = .running ∧ s.fetchInstr = .ok (.wmem a b) ∧ s.resolve a = .ok addr ∧
      addr.toNat = s.pc + 3 ∧ s.resolve b = .ok 0) ∧
    (∃ (s : State) (a b : Operand) (addr : Word), s.status = .running ∧ s.fetchInstr = .ok (.wmem a b) ∧ s.resolve a = .ok addr ∧
      addr.toNat = s.pc + 3 ∧ s.resolve b = .ok 22) ∧
    (∃ (s : State) (a b : Operand) (addr : Word), s.status = .running ∧ s.fetchInstr = .ok (.wmem a b) ∧ s.resolve a = .ok addr ∧
      addr.toNat = s.pc + 3 ∧ s.resolve b = .ok 9 ∧
      s.pc + 3 + Opcode.add.operandCount = 32767) ∧
    (∃ (s : State) (a b : Operand) (addr : Word), s.status = .running ∧ s.fetchInstr = .ok (.wmem a b) ∧ s.resolve a = .ok addr ∧
      addr.toNat = s.pc + 3 ∧ s.resolve b = .ok 9 ∧
      s.pc + 3 + Opcode.add.operandCount = 32768) := by
  exact ⟨⟨boot [16, 3, 0, 19, 65], .lit 3, .lit 0, 3, rfl, by decide, rfl, by decide, rfl⟩,
    ⟨boot [16, 3, 22, 19, 65], .lit 3, .lit 22, 3, rfl, by decide, rfl, by decide, rfl⟩,
    ⟨bootAt 32761 [16, 32764, 9, 0], .lit 32764, .lit 9, 32764, rfl, by decide, rfl, by decide, rfl, rfl⟩,
    ⟨bootAt 32762 [16, 32765, 9, 0], .lit 32765, .lit 9, 32765, rfl, by decide, rfl, by decide, rfl, rfl⟩⟩

/-- Meets the hypotheses of HeldInputWaitsUnchanged. -/
theorem witness_HeldInputWaitsUnchanged :
    ∃ (s : State) (r : RegIndex), s.status = .running ∧ s.fetchInstr = .ok (.inp (.reg r)) ∧ s.inPos = s.inCodes.length ∧
      s.inEnd = false := by
  exact ⟨{ boot [20, 32775] with inCodes := [1], inPos := 1 }, 7, rfl, by decide, rfl, rfl⟩

/-- Meets the hypotheses of OnlyAHeldInputIsAnswered. -/
theorem witness_OnlyAHeldInputIsAnswered :
    (∃ s : State, s.inputRequest = false) ∧ (∃ s : State, s.ended) ∧
    (∃ s t : State, s.inputRequest = false ∧ step s = .next t ∧ t.inputRequest = true) := by
  exact ⟨⟨State.reset, rfl⟩, ⟨(boot [0]).halt, .inl rfl⟩,
    ⟨boot [20, 32775], (boot [20, 32775]).holdInput, rfl, eq_next_of_nextOf (by decide), rfl⟩⟩

/-- Meets the hypotheses of LargeEnoughCapacityAgreesWithUnbounded. -/
theorem witness_LargeEnoughCapacityAgreesWithUnbounded :
    ∃ (s : State) (k n : Nat), 0 < n ∧
      (∀ m, m ≤ n → ∀ t, runFor m { s with stackCapacity := .unbounded } = .next t → t.stack.length ≤ k) ∧
      ∃ t, runFor n { s with stackCapacity := .unbounded } = .next t := by
  refine ⟨boot [2, 7], 1, 1, by decide, ?_, { boot [2, 7] with stack := [7], pc := 2 }, eq_next_of_nextOf (by decide)⟩
  intro m hm t h
  have hm : m = 0 ∨ m = 1 := by omega
  rcases hm with rfl | rfl
  · injection h with h; subst h; decide
  · have h1 : runFor 1 { boot [2, 7] with stackCapacity := .unbounded } = .next { boot [2, 7] with stack := [7], pc := 2 } :=
      eq_next_of_nextOf (by decide)
    rw [h1] at h; injection h with h; subst h; decide

end Sys2Proof.Tests
end

section
/-! PROOFS of the statements of spec/00_scope.md: only a held `in` is answered (R7), and a stack that a run never fills
behaves as the unbounded one (R6). -/

namespace Sys2Proof.Machine

/-- Everything a step that answers `t` can have done. -/
theorem step_cases {s t : State} (h : step s = .next t) :
    (s.ended ∧ t = s) ∨
    (∃ k, s.status = .running ∧ s.fetchInstr = .error k ∧ t = s.raised k) ∨
    (∃ i, s.status = .running ∧ s.fetchInstr = .ok i ∧ exec i s = .next t) := by
  cases hst : s.status with
  | halted => simp only [step, hst] at h; cases h; exact .inl ⟨.inl hst, rfl⟩
  | faulted => simp only [step, hst] at h; cases h; exact .inl ⟨.inr hst, rfl⟩
  | running =>
    cases hf : s.fetchInstr with
    | error k => rw [step_of_fetch_fault hst hf] at h; cases h; exact .inr (.inl ⟨k, rfl, rfl, rfl⟩)
    | ok i => exact .inr (.inr ⟨i, rfl, rfl, step_of_fetched hst hf ▸ h⟩)

/-- A machine that is Halted or Faulted answers itself (R214). -/
theorem step_of_ended {s : State} (h : s.ended) : step s = .next s := by
  rcases h with h | h <;> simp [step, h]

/-! ### The input request (R7, R39) -/

/-- An answer that nothing requested is refused (R7). -/
theorem answerRequest_of_no_request {s : State} (h : s.inputRequest = false) (answered : State) :
    answerRequest s answered = .refused .noInputRequest := by
  rcases answerRequest_cases s answered with ⟨hr, _⟩ | ⟨_, e⟩
  · rw [h] at hr; cases hr
  · exact e

/-- No instruction but `in` begins an input wait. -/
theorem Effect.inputWait_begins {i : Instr} {s t : State} (h : Effect i s t) (hs : s.inputWait = false)
    (ht : t.inputWait = true) : ∃ a, i = .inp a := by
  have unchanged : t.inputWait ≠ s.inputWait := by simp [hs, ht]
  cases h with
  | inputEnded a | held a => exact ⟨a, rfl⟩
  | received _ r => exact ⟨.reg r, rfl⟩
  | jt | jf => split at unchanged <;> exact absurd rfl unchanged
  | _ => exact absurd rfl unchanged

/-- An `in` begins a wait only when its destination is a register and the host has no answer ready; it then changes the
wait alone (R191, R224). -/
theorem execIn_begins_wait {a : Operand} {s t : State} (h : execIn a s = .next t) (hs : s.inputWait = false)
    (ht : t.inputWait = true) : (∃ r, a = .reg r) ∧ s.inputAnswer = none ∧ t = s.holdInput := by
  rcases execIn_cases a s with ⟨_, _, _, _, e⟩ | ⟨_, _, _, _, e⟩ | ⟨r, ha, hcode, hend, e⟩ | ⟨_, e⟩ <;>
    obtain rfl := Host.Outcome.next.inj (h.symm.trans e)
  · cases ht
  · cases ht
  · exact ⟨⟨r, ha⟩, by simp [State.inputAnswer, hcode, hend], rfl⟩
  · simp [hs] at ht

/-- There is no request once the status is Halted or Faulted. -/
theorem State.inputRequest_eq_false_of_ended {s : State} (h : s.ended) : s.inputRequest = false := by
  rcases h with h | h <;> simp [State.inputRequest, h]

/-- A step that ends with a request it did not begin with fetched an `in`, which began the wait. -/
theorem step_begins_request {s t : State} (hs : s.inputRequest = false) (h : step s = .next t)
    (ht : t.inputRequest = true) :
    ∃ a, s.fetchInstr = .ok (.inp a) ∧ execIn a s = .next t ∧ s.inputWait = false ∧ t.inputWait = true := by
  obtain ⟨htWait, htRunning⟩ := t.inputRequest_iff.mp ht
  rcases step_cases h with ⟨_, rfl⟩ | ⟨k, _, _, rfl⟩ | ⟨i, hst, hf, he⟩
  · rw [hs] at ht; cases ht
  · cases htRunning
  · have hsWait : s.inputWait = false := by simpa [State.inputRequest, hst] using hs
    obtain ⟨a, rfl⟩ := (effect_of_exec he).inputWait_begins hsWait htWait
    exact ⟨a, hf, he, hsWait, htWait⟩

/-! ### Another stack capacity (R6, D9) -/

/-- The same state under another `STACK_CAPACITY`. -/
def State.withCapacity (k : StackCapacity) (s : State) : State := { s with stackCapacity := k }

/-- An outcome with its next state under another `STACK_CAPACITY`. -/
def outcomeWithCapacity (k : StackCapacity) : Host.Outcome State Fault Refusal → Host.Outcome State Fault Refusal
  | .next t => .next (t.withCapacity k)
  | .fault r => .fault r
  | .refused r => .refused r

section
variable (k : StackCapacity) (s : State)

@[simp] theorem State.withCapacity_hasRoom :
    (s.withCapacity k).hasRoom ↔ StackCapacity.allows k (s.stack.length + 1) := Iff.rfl

@[simp] theorem State.withCapacity_setReg (i : RegIndex) (v : Word) :
    (s.withCapacity k).setReg i v = (s.setReg i v).withCapacity k := rfl

@[simp] theorem State.withCapacity_advance (n : Nat) : (s.withCapacity k).advance n = (s.advance n).withCapacity k := rfl

@[simp] theorem State.withCapacity_jump (v : Word) : (s.withCapacity k).jump v = (s.jump v).withCapacity k := rfl

@[simp] theorem State.withCapacity_raised (e : FaultKind) :
    (s.withCapacity k).raised e = (s.raised e).withCapacity k := rfl

@[simp] theorem State.withCapacity_emit (v : Word) : (s.withCapacity k).emit v = (s.emit v).withCapacity k := rfl

@[simp] theorem State.withCapacity_cell (a : Nat) : (s.withCapacity k).cell a = s.cell a := rfl

@[simp] theorem State.withCapacity_resolve (a : Operand) : (s.withCapacity k).resolve a = s.resolve a := by
  cases a <;> rfl

@[simp] theorem State.withCapacity_returnAddress : (s.withCapacity k).returnAddress = s.returnAddress := rfl

@[simp] theorem State.withCapacity_fetchInstr : (s.withCapacity k).fetchInstr = s.fetchInstr :=
  State.fetchInstr_congr rfl rfl

@[simp] theorem State.withCapacity_inputAnswer : (s.withCapacity k).inputAnswer = s.inputAnswer := rfl

@[simp] theorem State.withCapacity_memWrite (a : Nat) (v : Word) :
    (s.withCapacity k).memWrite a v = State.withCapacity k <$> s.memWrite a v := by
  unfold State.memWrite
  split <;> rfl

@[simp] theorem State.withCapacity_pop :
    (s.withCapacity k).pop = (fun p => (p.1, p.2.withCapacity k)) <$> s.pop := by
  rcases s.pop_cases with ⟨_, _, hs, _⟩ | ⟨hs, _⟩ <;> simp [State.pop, State.withCapacity, hs]

theorem settle_withCapacity (x : Except FaultKind State) :
    settle (s.withCapacity k) (State.withCapacity k <$> x) = outcomeWithCapacity k (settle s x) := by
  cases x <;> rfl

theorem binaryOp_withCapacity (f : Word → Word → Except FaultKind Word) (a b c : Operand) :
    binaryOp f a b c (s.withCapacity k) = outcomeWithCapacity k (binaryOp f a b c s) := by
  simp [binaryOp, ← settle_withCapacity]

theorem condJump_withCapacity (taken : Word → Bool) (a b : Operand) :
    condJump taken a b (s.withCapacity k) = outcomeWithCapacity k (condJump taken a b s) := by
  simp [condJump, ← settle_withCapacity, apply_ite]

theorem execIn_withCapacity (a : Operand) :
    execIn a (s.withCapacity k) = outcomeWithCapacity k (execIn a s) := by
  unfold execIn inputInto
  rw [State.withCapacity_inputAnswer]
  cases destReg a with
  | error e => rfl
  | ok r => rcases s.inputAnswer with _ | ⟨w⟩ | _ <;> rfl

/-- No instruction but `push` and `call` reads the capacity. -/
theorem exec_withCapacity {i : Instr} (hpush : i.opcode ≠ .push) (hcall : i.opcode ≠ .call) :
    exec i (s.withCapacity k) = outcomeWithCapacity k (exec i s) := by
  cases i with
  | push a => exact absurd rfl hpush
  | call a => exact absurd rfl hcall
  | halt | noop => rfl
  | eq | gt | add | mult | mod | and | or => exact binaryOp_withCapacity ..
  | jt | jf => exact condJump_withCapacity ..
  | inp a => exact execIn_withCapacity k s a
  | set | pop | jmp | not | rmem | wmem | ret | out =>
    simp [exec, execSet, execPop, execJmp, execNot, execRmem, execWmem, execRet, execOut, ← settle_withCapacity,
      -State.memWrite_word]

end

/-! ### A run whose depth a capacity allows -/

/-- An unbounded stack always has room (R6). -/
theorem State.hasRoom_of_unbounded {s : State} (hu : s.stackCapacity = .unbounded) : s.hasRoom := by
  simp [State.hasRoom, hu, StackCapacity.allows]

theorem State.push_withCapacity {k : StackCapacity} {s : State} (h : (s.withCapacity k).hasRoom) (v : Word) :
    (s.withCapacity k).push v = .ok ({ s with stack := s.stack ++ [v] }.withCapacity k) :=
  ((s.withCapacity k).push_cases v).elim And.right fun ⟨hfull, _⟩ => absurd h hfull

/-- No instruction writes the capacity (R6). -/
theorem Effect.stackCapacity_eq {i : Instr} {s t : State} (h : Effect i s t) : t.stackCapacity = s.stackCapacity := by
  cases h with
  | jt | jf => split <;> rfl
  | _ => rfl

theorem step_stackCapacity_eq {s t : State} (h : step s = .next t) : t.stackCapacity = s.stackCapacity := by
  rcases step_cases h with ⟨_, rfl⟩ | ⟨_, _, _, rfl⟩ | ⟨_, _, _, he⟩
  · rfl
  · rfl
  · exact (effect_of_exec he).stackCapacity_eq

section
variable {k : StackCapacity} {s t : State} (hu : s.stackCapacity = .unbounded)
include hu

/-- A push under a capacity that allows the depth it leaves is the unbounded one (R121). -/
theorem execPush_withCapacity_of_allows {a : Operand} (h : execPush a s = .next t)
    (hk : StackCapacity.allows k t.stack.length) : execPush a (s.withCapacity k) = .next (t.withCapacity k) := by
  rcases execPush_cases a s with ⟨v, ha, _, e⟩ | ⟨_, _, hfull, _⟩ | ⟨hbad, e⟩
  · obtain rfl := Host.Outcome.next.inj (h.symm.trans e)
    have hroom : (s.withCapacity k).hasRoom := by simpa using hk
    simp [execPush, ha, State.push_withCapacity hroom, bind, Except.bind, pure, Except.pure]
  · exact absurd (State.hasRoom_of_unbounded hu) hfull
  · obtain rfl := Host.Outcome.next.inj (h.symm.trans e)
    simp [execPush, (badValue_iff s a).mp hbad, bind, Except.bind]

/-- A call under a capacity that allows the depth it leaves is the unbounded one (R180). -/
theorem execCall_withCapacity_of_allows {a : Operand} (h : execCall a s = .next t)
    (hk : StackCapacity.allows k t.stack.length) : execCall a (s.withCapacity k) = .next (t.withCapacity k) := by
  rcases execCall_cases a s with ⟨v, ha, hpc, _, e⟩ | ⟨_, _, _, hfull, _⟩ | ⟨v, ha, hpc, e⟩ | ⟨hbad, e⟩
  · obtain rfl := Host.Outcome.next.inj (h.symm.trans e)
    have hroom : (s.withCapacity k).hasRoom := by simpa using hk
    have hra : s.returnAddress = .ok (BitVec.ofNat 15 (s.pc + 2)) := if_pos hpc
    simp [execCall, ha, hra, State.push_withCapacity hroom, bind, Except.bind, pure, Except.pure]
  · exact absurd (State.hasRoom_of_unbounded hu) hfull
  · obtain rfl := Host.Outcome.next.inj (h.symm.trans e)
    have hra : s.returnAddress = .error .invalidAddress := if_neg hpc.not_ge
    simp [execCall, ha, hra, bind, Except.bind]
  · obtain rfl := Host.Outcome.next.inj (h.symm.trans e)
    simp [execCall, (badValue_iff s a).mp hbad, bind, Except.bind]

/-- An instruction under a capacity that allows the depth it leaves does as under the unbounded one (D9). -/
theorem exec_withCapacity_of_allows {i : Instr} (h : exec i s = .next t)
    (hk : StackCapacity.allows k t.stack.length) : exec i (s.withCapacity k) = .next (t.withCapacity k) := by
  cases i with
  | push a => exact execPush_withCapacity_of_allows hu h hk
  | call a => exact execCall_withCapacity_of_allows hu h hk
  | _ =>
    refine (exec_withCapacity k s ?_ ?_).trans (congrArg (outcomeWithCapacity k) h) <;> simp [Instr.opcode]

/-- A step under a capacity that allows the depth it leaves is the unbounded one (R208). -/
theorem step_withCapacity_of_allows (h : step s = .next t) (hk : StackCapacity.allows k t.stack.length) :
    step (s.withCapacity k) = .next (t.withCapacity k) := by
  rcases step_cases h with ⟨hend, rfl⟩ | ⟨e, hst, hf, rfl⟩ | ⟨i, hst, hf, he⟩
  · exact step_of_ended hend
  · exact step_of_fetch_fault hst (by simpa using hf)
  · rw [step_of_fetched (s := s.withCapacity k) hst (by simpa using hf)]
    exact exec_withCapacity_of_allows hu he hk

end

/-- A run of one step more is a step and then a run. -/
theorem runFor_succ_cases {n : Nat} {s t : State} (h : runFor (n + 1) s = .next t) :
    ∃ u, step s = .next u ∧ runFor n u = .next t := by
  cases hs : step s with
  | next u => exact ⟨u, rfl, (runFor_succ_of_next hs) ▸ h⟩
  | fault r => cases r
  | refused r =>
    have hs' : Sys2Proof.core.step s = .refused r := hs
    simp [runFor, Host.Core.run, hs'] at h

/-- A run under a capacity that allows each depth of the unbounded run is the unbounded one (D9). -/
theorem runFor_withCapacity_of_allows {k : StackCapacity} {n : Nat} {s t : State} (hu : s.stackCapacity = .unbounded)
    (hk : ∀ m, m ≤ n → ∀ u, runFor m s = .next u → StackCapacity.allows k u.stack.length)
    (h : runFor n s = .next t) : runFor n (s.withCapacity k) = .next (t.withCapacity k) := by
  induction n generalizing s with
  | zero => cases h; rfl
  | succ n ih =>
    obtain ⟨u, hs, hrun⟩ := runFor_succ_cases h
    have hallowed : StackCapacity.allows k u.stack.length := hk 1 (by omega) u (runFor_succ_of_next hs)
    rw [runFor_succ_of_next (step_withCapacity_of_allows hu hs hallowed)]
    refine ih ((step_stackCapacity_eq hs).trans hu) (fun m hm v hv => hk (m + 1) (by omega) v ?_) hrun
    rw [runFor_succ_of_next hs, hv]

/-! ### The statements -/

/-- Settles O58, by induction on the number of steps: as long as the unbounded run stays within the capacity, no check of
the bounded one refuses. -/
theorem largeEnoughCapacityAgreesWithUnbounded : Obligations.LargeEnoughCapacityAgreesWithUnbounded := by
  intro s k n hdepth t h
  exact runFor_withCapacity_of_allows (s := s.withCapacity .unbounded) (k := .finite k) rfl hdepth h

/-- Settles O60: the third clause from the inversion of a step that begins a request. -/
theorem onlyAHeldInputIsAnswered : Obligations.OnlyAHeldInputIsAnswered := by
  refine ⟨fun s w hs => ?_, fun s => State.inputRequest_eq_false_of_ended, fun s t hs h ht => ?_⟩
  · exact ⟨answerRequest_of_no_request hs _, answerRequest_of_no_request hs _⟩
  · obtain ⟨a, hf, hin, hsWait, htWait⟩ := step_begins_request hs h ht
    obtain ⟨⟨r, rfl⟩, hanswer, htEq⟩ := execIn_begins_wait hin hsWait htWait
    exact ⟨hanswer, htEq, r, hf⟩

end Sys2Proof.Machine
end

section
/-! PROOFS of the statements of spec/10_state.md: what one instruction can do to each part of the state, that every step
keeps the invariant, and that nothing but `in` and `out` reads a channel and nothing at all a debug flag. -/

namespace Sys2Proof.Machine

/-! ### What an instruction can do to each part of the state -/

/-- A write changes no register but the one it names (R21). -/
theorem State.eq_of_setReg_ne {s : State} {q r : RegIndex} {w : Word} (h : (s.setReg q w).regs[r] ≠ s.regs[r]) :
    q = r := by
  by_contra hqr
  exact h (by simpa using s.getReg_setReg_other w (Ne.symm hqr))

section
variable {i : Instr} {s t : State}

/-- The registers: only a destination slot's register can differ afterwards (R22). -/
theorem Effect.regs_changed (h : Effect i s t) {r : RegIndex} (hr : t.regs[r] ≠ s.regs[r]) :
    i.opcode ∈ [.set, .pop, .eq, .gt, .add, .mult, .mod, .and, .or, .not, .rmem, .inp] ∧
      (Role.dest, Operand.reg r) ∈ i.slots := by
  cases h with
  | wrote _ _ q w hi hs =>
    obtain rfl := State.eq_of_setReg_ne hr
    exact ⟨by simp only [List.mem_cons] at hi ⊢; tauto, hs⟩
  | pop _ q below v _ =>
    obtain rfl := State.eq_of_setReg_ne (s := { s with stack := below }) hr
    simp [Instr.opcode, Instr.slots]
  | received _ q w _ =>
    obtain rfl := State.eq_of_setReg_ne (s := s.endInputWait) hr
    simp [Instr.opcode, Instr.slots]
  | jt | jf => split at hr <;> exact absurd rfl hr
  | _ => exact absurd rfl hr

/-- The stack: untouched, one entry pushed where there was room, or the top popped (R28, R30). -/
theorem Effect.stack_cases (h : Effect i s t) :
    t.stack = s.stack ∨
    (i.opcode ∈ [.push, .call] ∧ s.hasRoom ∧ ∃ v, t.stack = s.stack ++ [v]) ∨
    (i.opcode ∈ [.pop, .ret] ∧ ∃ v, s.stack = t.stack ++ [v]) := by
  cases h with
  | push _ _ v hr => exact .inr (.inl ⟨by simp [Instr.opcode], hr, v, rfl⟩)
  | call _ _ _ _ hr => exact .inr (.inl ⟨by simp [Instr.opcode], hr, _, rfl⟩)
  | pop _ _ _ v hs => exact .inr (.inr ⟨by simp [Instr.opcode], v, hs⟩)
  | ret _ _ v hs => exact .inr (.inr ⟨by simp [Instr.opcode], v, hs⟩)
  | jt | jf => split <;> exact .inl rfl
  | _ => exact .inl rfl

/-- The output: untouched, or one code appended by `out` (R37, R190). -/
theorem Effect.output_cases (h : Effect i s t) :
    t.output = s.output ∨ (i.opcode = .out ∧ ∃ v, t.output = s.output ++ [v]) := by
  cases h with
  | out _ _ v => exact .inr ⟨rfl, v, rfl⟩
  | jt | jf => split <;> exact .inl rfl
  | _ => exact .inl rfl

/-- The input position: untouched, or one code that the host has consumed by `in` (R38, R191). -/
theorem Effect.inPos_cases (h : Effect i s t) :
    t.inPos = s.inPos ∨ (i.opcode = .inp ∧ t.inPos = s.inPos + 1 ∧ s.inPos < s.inCodes.length) := by
  cases h with
  | received _ _ _ hw => exact .inr ⟨rfl, rfl, (List.getElem?_eq_some_iff.mp hw).1⟩
  | jt | jf => split <;> exact .inl rfl
  | _ => exact .inl rfl

/-- Only `in` writes the input wait (R39). -/
theorem Effect.inputWait_eq (h : Effect i s t) (hi : i.opcode ≠ .inp) : t.inputWait = s.inputWait := by
  cases h with
  | inputEnded | held | received => exact absurd rfl hi
  | jt | jf => split <;> rfl
  | _ => rfl

/-- No instruction writes what the host answers with (R38). -/
theorem Effect.host_eq (h : Effect i s t) : t.inCodes = s.inCodes ∧ t.inEnd = s.inEnd := by
  cases h with
  | jt | jf => split <;> exact ⟨rfl, rfl⟩
  | _ => exact ⟨rfl, rfl⟩

/-- Memory stays in canonical form (R31, R51). -/
theorem Effect.mem_wf (h : Effect i s t) (hm : s.mem.wf = true) : t.mem.wf = true := by
  cases h with
  | wmem _ _ _ x v => exact Memory.put_wf _ (word_lt_memWords x) hm
  | jt | jf => split <;> exact hm
  | _ => exact hm

/-- The pc goes no further than past the instruction, or to a Word (R81). -/
theorem Effect.pc_cases (h : Effect i s t) : t.pc ≤ s.pc + i.length ∨ ∃ v : Word, t.pc = v.toNat := by
  cases h with
  | jmp _ _ v | call _ _ v | ret _ _ v => exact .inr ⟨v, rfl⟩
  | jt _ _ _ _ v | jf _ _ _ _ v =>
    split
    · exact .inr ⟨v, rfl⟩
    · exact .inl le_rfl
  | raised | inputEnded | held => exact .inl (Nat.le_add_right ..)
  | _ => exact .inl le_rfl

end

/-! ### The invariant (R25, R31, R34, R38, R39, R6) -/

theorem inputInto_of_no_answer {s : State} (r : RegIndex) (h : s.inputAnswer = none) :
    inputInto r s = .next s.holdInput := by
  simp [inputInto, h]

theorem inputInto_of_char {s : State} (r : RegIndex) {w : Word} (h : s.inputAnswer = some (.char w)) :
    inputInto r s = .next ((s.endInputWait.setReg r w).consumeInput.advance 2) := by
  simp [inputInto, h]

theorem inputInto_of_end {s : State} (r : RegIndex) (h : s.inputAnswer = some .endOfInput) :
    inputInto r s = .next (s.endInputWait.raised .inputExhausted) := by
  simp [inputInto, h]

/-- A step at an `in` whose destination is a register is that input. -/
theorem step_of_fetched_in {s : State} {r : RegIndex} (hs : s.status = .running)
    (hf : s.fetchInstr = .ok (.inp (.reg r))) : step s = inputInto r s :=
  step_of_fetched hs hf

theorem State.holdInput_of_wait {s : State} (h : s.inputWait = true) : s.holdInput = s := by
  rw [State.holdInput, ← h]

/-- While a request is outstanding, a step changes nothing (R39). -/
theorem State.Inv.step_of_wait {s : State} (hs : s.Inv) (hw : s.inputWait = true) : step s = .next s := by
  obtain ⟨hrun, hnone, r, hf⟩ := hs.waitsAtIn hw
  rw [step_of_fetched_in hrun hf, inputInto_of_no_answer r hnone, State.holdInput_of_wait hw]

/-- A fault taken with no request outstanding keeps the invariant (R211). -/
theorem State.Inv.raised {s : State} (hs : s.Inv) (hw : s.inputWait = false) (k : FaultKind) : (s.raised k).Inv where
  memCanonical := hs.memCanonical
  pcInRange := hs.pcInRange
  faultKindIffFaulted := by simp
  capacityPositive := hs.capacityPositive
  stackWithinCapacity := hs.stackWithinCapacity
  inPosInRange := hs.inPosInRange
  waitsAtIn := by simp [hw]

section
variable {i : Instr} {s t : State}

/-- A running instruction records a fault kind exactly when it takes a fault (R34, R211). -/
theorem exec_faultKind_iff (hrun : s.status = .running) (hnone : s.faultKind = none) (h : exec i s = .next t) :
    t.faultKind ≠ none ↔ t.status = .faulted := by
  rcases exec_fault_cases i s with ⟨u, e, hk, hst⟩ | ⟨k, _, e⟩ | ⟨_, e⟩ <;>
    obtain rfl := Host.Outcome.next.inj (h.symm.trans e)
  · rcases hst with hst | hst <;> simp [hk, hnone, hst, hrun]
  · simp
  · simp

/-- A smaller depth is allowed where a greater one is. -/
theorem StackCapacity.allows_mono {k : StackCapacity} {m n : Nat} (hmn : m ≤ n) (h : StackCapacity.allows k n) :
    StackCapacity.allows k m := by
  cases k with
  | unbounded => trivial
  | finite c => exact hmn.trans h

/-- No instruction lets the stack grow beyond its capacity (R28, R208). -/
theorem Effect.stack_allowed (h : Effect i s t) (hs : StackCapacity.allows s.stackCapacity s.stack.length) :
    StackCapacity.allows s.stackCapacity t.stack.length := by
  rcases h.stack_cases with e | ⟨_, hroom, v, e⟩ | ⟨_, v, e⟩
  · exact e ▸ hs
  · simpa [e, State.hasRoom] using hroom
  · exact StackCapacity.allows_mono (by simp [e]) hs

/-- The executed instruction keeps the invariant, if no request was outstanding when it was fetched. -/
theorem State.Inv.of_exec (hs : s.Inv) (hrun : s.status = .running) (hw : s.inputWait = false)
    (hf : s.fetchInstr = .ok i) (h : exec i s = .next t) : t.Inv where
  memCanonical := (effect_of_exec h).mem_wf hs.memCanonical
  pcInRange := by
    have hfit := State.pc_add_length_le hf
    rcases (effect_of_exec h).pc_cases with hle | ⟨v, e⟩
    · omega
    · have := v.isLt; omega
  faultKindIffFaulted := by
    have hnone : s.faultKind = none := by
      by_contra hk
      simpa [hrun] using hs.faultKindIffFaulted.mp hk
    exact exec_faultKind_iff hrun hnone h
  capacityPositive := (effect_of_exec h).stackCapacity_eq ▸ hs.capacityPositive
  stackWithinCapacity := (effect_of_exec h).stackCapacity_eq ▸ (effect_of_exec h).stack_allowed hs.stackWithinCapacity
  inPosInRange := by
    rw [(effect_of_exec h).host_eq.1]
    rcases (effect_of_exec h).inPos_cases with e | ⟨_, e, hlt⟩
    · exact e ▸ hs.inPosInRange
    · omega
  waitsAtIn ht := by
    obtain ⟨a, rfl⟩ := (effect_of_exec h).inputWait_begins hw ht
    obtain ⟨⟨r, rfl⟩, hnone, rfl⟩ := execIn_begins_wait h hw ht
    exact ⟨hrun, hnone, r, (State.fetchInstr_congr (s := s) (t := s.holdInput) rfl rfl).trans hf⟩

end

/-- Settles O48: a held `in` is left as it is, and otherwise no request is outstanding, so that a fault clears nothing and
only an `in` begins a wait. -/
theorem everyStepKeepsTheInvariant : Obligations.EveryStepKeepsTheInvariant := by
  intro s t hs h
  cases hw : s.inputWait with
  | true => exact Host.Outcome.next.inj ((hs.step_of_wait hw).symm.trans h) ▸ hs
  | false =>
    rcases step_cases h with ⟨_, rfl⟩ | ⟨k, _, _, rfl⟩ | ⟨i, hrun, hf, he⟩
    · exact hs
    · exact hs.raised hw k
    · exact hs.of_exec hrun hw hf he

/-! ### Who writes the registers, the stack and the channels (R22, R30, R192) -/

/-- The destination slots of an instruction are the listed 12's only, one each (R73). -/
theorem opcode_mem_iff_one_dest (i : Instr) :
    i.opcode ∈ [.set, .pop, .eq, .gt, .add, .mult, .mod, .and, .or, .not, .rmem, .inp] ↔
      (i.slots.filter fun p => p.1 = .dest).length = 1 := by
  cases i <;> simp [Instr.opcode, Instr.slots]

/-- Settles O42: the first clause by the ways an instruction changes a register, the second by its slots. -/
theorem onlyTwelveInstructionsWriteRegisters : Obligations.OnlyTwelveInstructionsWriteRegisters := by
  refine ⟨fun i s t r h hr => (effect_of_exec h).regs_changed hr, opcode_mem_iff_one_dest, fun s i j w => ⟨?_, ?_⟩⟩
  · simpa [preset] using s.getReg_setReg_same i w
  · exact fun hji => by simpa [preset] using s.getReg_setReg_other w hji

/-- Settles O43, by the three things an instruction can do to the stack. -/
theorem onlyFourInstructionsTouchTheStack : Obligations.OnlyFourInstructionsTouchTheStack := by
  intro i s t h
  rcases (effect_of_exec h).stack_cases with e | ⟨hi, _, v, e⟩ | ⟨hi, v, e⟩
  · exact ⟨fun _ => .inl e, fun _ => .inl e, fun _ => e⟩
  · obtain hi | hi : i.opcode = .push ∨ i.opcode = .call := by simpa using hi
    all_goals simp [hi, e]
  · obtain hi | hi : i.opcode = .pop ∨ i.opcode = .ret := by simpa using hi
    all_goals simp [hi, e]

/-! ### What an instruction does not read (R40, R192) -/

/-- `f` rewrites only fields that no instruction but `in` and `out` reads or writes: it keeps what instructions read, and
commutes with what they write. -/
structure Unseen (f : State → State) : Prop where
  pc (s : State) : (f s).pc = s.pc
  regs (s : State) : (f s).regs = s.regs
  stack (s : State) : (f s).stack = s.stack
  mem (s : State) : (f s).mem = s.mem
  stackCapacity (s : State) : (f s).stackCapacity = s.stackCapacity
  setReg (s : State) (i : RegIndex) (v : Word) : (f s).setReg i v = f (s.setReg i v)
  setStack (s : State) (vs : List Word) : { f s with stack := vs } = f { s with stack := vs }
  setMem (s : State) (m : Memory) : { f s with mem := m } = f { s with mem := m }
  advance (s : State) (n : Nat) : (f s).advance n = f (s.advance n)
  jump (s : State) (v : Word) : (f s).jump v = f (s.jump v)
  halt (s : State) : (f s).halt = f s.halt
  raised (s : State) (k : FaultKind) : (f s).raised k = f (s.raised k)

/-- An outcome with its next state rewritten. -/
def mapNext (f : State → State) : Host.Outcome State Fault Refusal → Host.Outcome State Fault Refusal
  | .next t => .next (f t)
  | .fault r => .fault r
  | .refused r => .refused r

namespace Unseen

variable {f : State → State} (hf : Unseen f) (s : State)
include hf

theorem resolve_eq (a : Operand) : (f s).resolve a = s.resolve a := by
  cases a <;> simp [hf.regs]

theorem cell_eq (a : Nat) : (f s).cell a = s.cell a := by
  rw [State.cell, hf.mem, State.cell]

theorem fetchInstr_eq : (f s).fetchInstr = s.fetchInstr :=
  State.fetchInstr_congr (hf.pc s) (hf.mem s)

theorem returnAddress_eq : (f s).returnAddress = s.returnAddress := by
  simp only [State.returnAddress, hf.pc]

theorem push_map (v : Word) : (f s).push v = f <$> s.push v := by
  have hfull : stackFull (f s).stackCapacity (f s).stackSize = stackFull s.stackCapacity s.stackSize := by
    simp only [State.stackSize, hf.stackCapacity, hf.stack]
  rw [State.push, hfull, hf.stack, hf.setStack, State.push]
  split <;> rfl

theorem pop_map : (f s).pop = (fun p => (p.1, f p.2)) <$> s.pop := by
  simp only [State.pop, hf.stack, hf.setStack]
  split <;> rfl

theorem memWrite_map (a : Nat) (v : Word) : (f s).memWrite a v = f <$> s.memWrite a v := by
  simp only [State.memWrite, hf.mem, hf.setMem]
  split <;> rfl

theorem settle_map (x : Except FaultKind State) : settle (f s) (f <$> x) = mapNext f (settle s x) := by
  cases x with
  | ok t => rfl
  | error k => exact congrArg Host.Outcome.next (hf.raised s k)

theorem binaryOp_map (g : Word → Word → Except FaultKind Word) (a b c : Operand) :
    binaryOp g a b c (f s) = mapNext f (binaryOp g a b c s) := by
  simp [binaryOp, ← hf.settle_map, hf.resolve_eq, hf.setReg, hf.advance]

theorem condJump_map (taken : Word → Bool) (a b : Operand) :
    condJump taken a b (f s) = mapNext f (condJump taken a b s) := by
  simp [condJump, ← hf.settle_map, hf.resolve_eq, hf.jump, hf.advance, apply_ite]

/-- Every instruction but `in` and `out` does the same, whatever stands in the fields that `f` rewrites. -/
theorem exec_map {i : Instr} (hout : i.opcode ≠ .out) (hin : i.opcode ≠ .inp) :
    exec i (f s) = mapNext f (exec i s) := by
  cases i with
  | out a => exact absurd rfl hout
  | inp a => exact absurd rfl hin
  | eq | gt | add | mult | mod | and | or => exact hf.binaryOp_map ..
  | jt | jf => exact hf.condJump_map ..
  | halt | noop => simp [exec, execHalt, execNoop, mapNext, hf.halt, hf.advance]
  | set | not | jmp =>
    simp [exec, execSet, execNot, execJmp, ← hf.settle_map, hf.resolve_eq, hf.setReg, hf.jump, hf.advance]
  | rmem | wmem =>
    simp [exec, execRmem, execWmem, ← hf.settle_map, hf.resolve_eq, hf.cell_eq, hf.memWrite_map, hf.setReg, hf.advance,
      -State.memWrite_word]
  | push | pop | call | ret =>
    simp [exec, execPush, execPop, execCall, execRet, ← hf.settle_map, hf.resolve_eq, hf.returnAddress_eq, hf.push_map,
      hf.pop_map, hf.setReg, hf.jump, hf.advance]

end Unseen

/-! ### The channels (R192) -/

/-- The same state with other contents of the channels. -/
def State.withChannels (o : List Word) (p : Nat) (ic : List Word) (e w : Bool) (s : State) : State :=
  { s with output := o, inPos := p, inCodes := ic, inEnd := e, inputWait := w }

theorem unseen_withChannels (o : List Word) (p : Nat) (ic : List Word) (e w : Bool) :
    Unseen (State.withChannels o p ic e w) := by
  constructor <;> intros <;> rfl

/-- Settles O45: the writes by what each instruction does to a channel, the reads by rewriting the channels. -/
theorem onlyOutAndInReachTheChannels : Obligations.OnlyOutAndInReachTheChannels := by
  intro i s t h
  have effect := effect_of_exec h
  refine ⟨fun hi => ?_, fun _ => ?_, fun hi => ⟨?_, effect.inputWait_eq hi⟩, fun _ => ?_, effect.host_eq.1,
    effect.host_eq.2, fun hi o p ic e w => ?_⟩
  · exact effect.output_cases.resolve_right fun hout => hi hout.1
  · exact effect.output_cases.imp_right And.right
  · exact effect.inPos_cases.resolve_right fun hin => hi hin.1
  · exact effect.inPos_cases.imp_right fun hin => hin.2.1
  · obtain ⟨hout, hin⟩ : i.opcode ≠ .out ∧ i.opcode ≠ .inp := by simpa using hi
    exact ((unseen_withChannels o p ic e w).exec_map s hout hin).trans (congrArg (mapNext _) h)

/-! ### The debug flags (R40) -/

/-- The same state with other debug flags. -/
def State.withFlags (tr du : Bool) (s : State) : State := { s with traceEn := tr, dumpEn := du }

theorem unseen_withFlags (tr du : Bool) : Unseen (State.withFlags tr du) := by
  constructor <;> intros <;> rfl

theorem execOut_withFlags (tr du : Bool) (a : Operand) (s : State) :
    execOut a (s.withFlags tr du) = mapNext (State.withFlags tr du) (execOut a s) := by
  cases a <;> rfl

theorem execIn_withFlags (tr du : Bool) (a : Operand) (s : State) :
    execIn a (s.withFlags tr du) = mapNext (State.withFlags tr du) (execIn a s) := by
  have hanswer : (s.withFlags tr du).inputAnswer = s.inputAnswer := rfl
  unfold execIn inputInto
  rw [hanswer]
  cases destReg a with
  | error k => rfl
  | ok r => rcases s.inputAnswer with _ | ⟨w⟩ | _ <;> rfl

theorem exec_withFlags (tr du : Bool) (i : Instr) (s : State) :
    exec i (s.withFlags tr du) = mapNext (State.withFlags tr du) (exec i s) := by
  cases i with
  | out a => exact execOut_withFlags tr du a s
  | inp a => exact execIn_withFlags tr du a s
  | _ => exact (unseen_withFlags tr du).exec_map s (by simp [Instr.opcode]) (by simp [Instr.opcode])

/-- Settles O47: neither the fetch nor an instruction reads a flag. -/
theorem traceAndDumpHaveNoEffect : Obligations.TraceAndDumpHaveNoEffect := by
  intro s t tr du h
  have hfetch := (unseen_withFlags tr du).fetchInstr_eq s
  rcases step_cases h with ⟨hend, rfl⟩ | ⟨k, hrun, hf, rfl⟩ | ⟨i, hrun, hf, he⟩
  · exact step_of_ended hend
  · exact step_of_fetch_fault hrun (hfetch.trans hf)
  · calc step (s.withFlags tr du)
      _ = exec i (s.withFlags tr du) := step_of_fetched hrun (hfetch.trans hf)
      _ = mapNext (State.withFlags tr du) (exec i s) := exec_withFlags tr du i s
      _ = .next (t.withFlags tr du) := by rw [he, mapNext]

/-! ### A held `in` and its answer (R39, R191, R224) -/

/-- Any positive number of steps at an unanswered `in` begins the wait and then holds it (R39, D13). -/
theorem runFor_of_no_answer {s : State} {r : RegIndex} (hrun : s.status = .running)
    (hf : s.fetchInstr = .ok (.inp (.reg r))) (hnone : s.inputAnswer = none) (n : Nat) :
    runFor (n + 1) s = .next s.holdInput := by
  induction n generalizing s with
  | zero => exact runFor_succ_of_next ((step_of_fetched_in hrun hf).trans (inputInto_of_no_answer r hnone))
  | succ n ih =>
    rw [runFor_succ_of_next ((step_of_fetched_in hrun hf).trans (inputInto_of_no_answer r hnone))]
    exact ih (s := s.holdInput) hrun ((State.fetchInstr_congr (s := s) (t := s.holdInput) rfl rfl).trans hf) hnone

/-- An answer to the held `in` is that `in` done on the answered state (R7). -/
theorem answerRequest_of_held_in {s answered : State} {r : RegIndex} (hrun : s.status = .running)
    (hf : s.fetchInstr = .ok (.inp (.reg r))) (hstatus : answered.status = s.status) (hpc : answered.pc = s.pc)
    (hmem : answered.mem = s.mem) : answerRequest s.holdInput answered = inputInto r answered := by
  rw [answerRequest, if_pos (by simp [hrun])]
  exact step_of_fetched_in (hstatus.trans hrun) ((State.fetchInstr_congr hpc hmem).trans hf)

/-- Settles O57: the wait by induction on the number of steps, each answer by the `in` it completes. -/
theorem heldInputWaitsUnchanged : Obligations.HeldInputWaitsUnchanged := by
  intro s r n w hrun hf hpos hend
  have hnone : s.inputAnswer = none := by simp [State.inputAnswer, hpos, hend]
  refine ⟨runFor_of_no_answer hrun hf hnone n, by simp [hrun], ?_, ?_⟩
  · calc answerChar w s.holdInput
      _ = inputInto r { s.holdInput with inCodes := s.inCodes ++ [w] } := answerRequest_of_held_in hrun hf rfl rfl rfl
      _ = .next _ := inputInto_of_char r (w := w) (by simp [State.inputAnswer, hpos])
      _ = _ := by rw [State.setReg_eq]; rfl
  · calc answerEnd s.holdInput
      _ = inputInto r { s.holdInput with inEnd := true } := answerRequest_of_held_in hrun hf rfl rfl rfl
      _ = .next _ := inputInto_of_end r (by simp [State.inputAnswer, hpos])

/-! ### The host port (R33, R34, R36) -/

theorem FaultKind.code_ne_zero (k : FaultKind) : k.code ≠ 0 := by
  cases k <;> decide

/-- The `fault_kind` port is 0 exactly where no fault kind is recorded (R34). -/
theorem State.faultKindPort_eq_zero_iff (s : State) : s.faultKindPort = 0 ↔ s.faultKind = none := by
  unfold State.faultKindPort
  cases s.faultKind with
  | none => simp
  | some k => exact iff_of_false k.code_ne_zero (Option.some_ne_none k)

/-- The 16 bits of the `pc` port hold every pc in its range (R25, R36). -/
theorem State.pcPort_toNat {s : State} (h : s.pc ≤ 32768) : s.pcPort.toNat = s.pc := by
  simp only [State.pcPort, BitVec.toNat_ofNat]
  omega

/-- Settles O59: the codes by evaluation, the two ports by the invariant. -/
theorem hostPortCodes : Obligations.HostPortCodes := by
  refine ⟨⟨rfl, rfl, rfl⟩, ⟨rfl, rfl, rfl, rfl, rfl, rfl, rfl, rfl⟩, fun s hs => ⟨?_, ?_, rfl⟩⟩
  · exact State.pcPort_toNat hs.pcInRange
  · rw [State.faultKindPort_eq_zero_iff, ← not_iff_not, not_not]
    exact hs.faultKindIffFaulted

end Sys2Proof.Machine
end

section
/-! PROOFS of the statements of spec/20_memory.md: only `wmem` writes memory (R58, R67), and what it stores at the next
opcode word is what the next fetch reads (R65, R246). -/

namespace Sys2Proof

/-! ### Decoded operand words are the encoding (R71, R74) -/

section
variable {ws rest : List Cell} {i : Instr}

theorem decodeF0_ok {j : Instr} (h : decodeF0 j ws = .ok (i, rest)) : ws = rest ∧ i = j := by
  cases h; exact ⟨rfl, rfl⟩

theorem decodeF1_ok {f : Operand → Instr} (h : decodeF1 f ws = .ok (i, rest)) :
    ∃ a, ws = encodeOperand a :: rest ∧ i = f a := by
  unfold decodeF1 at h
  split at h <;> cases h
  exact ⟨_, by rw [encodeOperand_decodeOperand], rfl⟩

theorem decodeF2_ok {f : Operand → Operand → Instr} (h : decodeF2 f ws = .ok (i, rest)) :
    ∃ a b, ws = encodeOperand a :: encodeOperand b :: rest ∧ i = f a b := by
  unfold decodeF2 at h
  split at h <;> cases h
  exact ⟨_, _, by simp only [encodeOperand_decodeOperand], rfl⟩

theorem decodeF3_ok {f : Operand → Operand → Operand → Instr} (h : decodeF3 f ws = .ok (i, rest)) :
    ∃ a b c, ws = encodeOperand a :: encodeOperand b :: encodeOperand c :: rest ∧ i = f a b c := by
  unfold decodeF3 at h
  split at h <;> cases h
  exact ⟨_, _, _, by simp only [encodeOperand_decodeOperand], rfl⟩

/-- The opcode word with the operand words decoded after it is the encoding of the instruction they decode to. -/
theorem encode_of_decodeOperands {o : Opcode} (h : decodeOperands o ws = .ok (i, rest)) :
    encode i ++ rest = o.cell :: ws := by
  cases o with
  | halt | ret | noop => obtain ⟨rfl, rfl⟩ := decodeF0_ok h; rfl
  | push | pop | jmp | call | out | inp => obtain ⟨a, rfl, rfl⟩ := decodeF1_ok h; rfl
  | set | jt | jf | not | rmem | wmem => obtain ⟨a, b, rfl, rfl⟩ := decodeF2_ok h; rfl
  | eq | gt | add | mult | mod | and | or => obtain ⟨a, b, c, rfl, rfl⟩ := decodeF3_ok h; rfl

end

theorem Instr.eq_halt_of_opcode {i : Instr} (h : i.opcode = .halt) : i = .halt := by
  cases i with
  | halt => rfl
  | _ => cases h

end Sys2Proof

namespace Sys2Proof.Machine

/-! ### Who writes memory (R50, R58, R67) -/

/-- Memory: untouched, or one cell put by `wmem` where its first operand's value addresses (R171). -/
theorem Effect.mem_cases {i : Instr} {s t : State} (h : Effect i s t) :
    t.mem = s.mem ∨
    ∃ a b addr v, i = .wmem a b ∧ s.resolve a = .ok addr ∧ t.mem = s.mem.put addr.toNat (zext16 v) := by
  cases h with
  | wmem a b _ addr v ha => exact .inr ⟨a, b, addr, v, rfl, ha, rfl⟩
  | jt | jf => split <;> exact .inl rfl
  | _ => exact .inl rfl

/-- Settles O44, by the two things an instruction can do to memory. -/
theorem onlyWmemWritesMemory : Obligations.OnlyWmemWritesMemory := by
  intro i s t h
  rcases (effect_of_exec h).mem_cases with e | ⟨a, b, addr, v, rfl, ha, e⟩
  · exact ⟨fun _ => e, fun _ _ _ x _ => congrArg (Memory.cellAt x) e⟩
  · refine ⟨fun hi => absurd rfl hi, fun a' b' hi x hx => ?_⟩
    cases hi
    rw [State.cell, e, Memory.cellAt_put_other (hx addr ha), State.cell]

/-! ### A fetch by its opcode word (R72, R80, R82) -/

/-- A fetched instruction's encoding is the cells from the pc up. -/
theorem State.encode_of_fetchInstr {s : State} {i : Instr} (h : s.fetchInstr = .ok i) :
    encode i = (List.range' s.pc i.length).map s.cell := by
  rcases s.fetchInstr_cases with ⟨_, e⟩ | ⟨_, _, e⟩ | ⟨_, _, _, _, e⟩ | ⟨o, j, _, ho, _, rfl, hd, e⟩ <;>
    cases h.symm.trans e
  calc encode i
    _ = i.opcode.cell :: s.operandCells i.opcode.operandCount := by simpa using encode_of_decodeOperands hd
    _ = s.cell s.pc :: s.operandCells i.opcode.operandCount := by rw [Opcode.cell_of_ofNumber ho]
    _ = (List.range' s.pc i.length).map s.cell := by
      rw [Instr.length, Nat.add_comm, List.range'_succ, List.map_cons, State.operandCells]

section
variable {s : State} {o : Opcode}

/-- A row of the table at the pc whose operand words fit below the top of memory is fetched. -/
theorem State.fetchInstr_of_fits (ho : o.number = (s.cell s.pc).toNat) (hfit : s.pc + o.operandCount ≤ 32767) :
    ∃ i, i.opcode = o ∧ s.fetchInstr = .ok i := by
  have hrow := Opcode.ofNumber_number o
  rw [ho] at hrow
  rcases s.fetchInstr_cases with ⟨_, _⟩ | ⟨_, hbad, _⟩ | ⟨o', _, ho', _, _⟩ | ⟨o', i, _, ho', _, hi, _, e⟩
  · omega
  · have := o.number_le; omega
  · cases hrow.symm.trans ho'; omega
  · cases hrow.symm.trans ho'; exact ⟨i, hi, e⟩

/-- A row of the table at the pc whose operand words reach past the top of memory is InvalidAddress (R82, R203). -/
theorem State.fetchInstr_of_not_fits (ho : o.number = (s.cell s.pc).toNat) (hover : 32767 < s.pc + o.operandCount) :
    s.fetchInstr = .error .invalidAddress := by
  have hrow := Opcode.ofNumber_number o
  rw [ho] at hrow
  rcases s.fetchInstr_cases with ⟨_, e⟩ | ⟨_, hbad, _⟩ | ⟨_, _, _, _, e⟩ | ⟨o', _, _, ho', _, _, _, _⟩
  · exact e
  · have := o.number_le; omega
  · exact e
  · cases hrow.symm.trans ho'; omega

/-- No row of the table at the pc is InvalidOpcode (R72, R201). -/
theorem State.fetchInstr_of_bad_opcode (hpc : s.pc ≤ 32767) (hbad : 21 < (s.cell s.pc).toNat) :
    s.fetchInstr = .error .invalidOpcode := by
  have hrow := Opcode.ofNumber_of_gt hbad
  rcases s.fetchInstr_cases with ⟨_, _⟩ | ⟨_, _, e⟩ | ⟨_, _, ho', _⟩ | ⟨_, _, _, ho', _⟩
  · omega
  · exact e
  · cases hrow.symm.trans ho'
  · cases hrow.symm.trans ho'

end

/-! ### A store over the next opcode word (R65, R246) -/

/-- The state after a `wmem` of the value `v` at the address `addr` (R171). -/
def State.afterWmem (s : State) (addr v : Word) : State :=
  { s with mem := s.mem.put addr.toNat (zext16 v) }.advance 3

section
variable {s : State} {addr v : Word}

@[simp] theorem State.afterWmem_pc : (s.afterWmem addr v).pc = s.pc + 3 := rfl

theorem State.cell_afterWmem_same : (s.afterWmem addr v).cell addr.toNat = zext16 v :=
  Memory.cellAt_put_same ..

theorem State.cell_afterWmem_other {x : Nat} (h : x ≠ addr.toNat) : (s.afterWmem addr v).cell x = s.cell x :=
  Memory.cellAt_put_other h ..

/-- A step at a `wmem` whose operands resolve is its store, whatever cell it overwrites. -/
theorem step_of_fetched_wmem {a b : Operand} (hrun : s.status = .running) (hf : s.fetchInstr = .ok (.wmem a b))
    (ha : s.resolve a = .ok addr) (hb : s.resolve b = .ok v) : step s = .next (s.afterWmem addr v) := by
  rw [step_of_fetched hrun hf]
  rcases execWmem_cases a b s with ⟨addr', v', ha', hb', e⟩ | ⟨hbad, _⟩
  · cases ha.symm.trans ha'
    cases hb.symm.trans hb'
    exact e
  · rw [badValue_iff s a, badValue_iff s b, ha, hb] at hbad
    simp at hbad

/-- The opcode word that the next fetch reads is the value stored there. -/
theorem State.cell_afterWmem_pc (haddr : addr.toNat = s.pc + 3) :
    ((s.afterWmem addr v).cell (s.afterWmem addr v).pc).toNat = v.toNat := by
  rw [State.afterWmem_pc, ← haddr, State.cell_afterWmem_same, zext16_toNat]

/-- A row of the table stored over the next opcode word is fetched with the operand words that stood there before. -/
theorem State.fetchInstr_afterWmem {o : Opcode} (haddr : addr.toNat = s.pc + 3) (ho : o.number = v.toNat)
    (hfit : s.pc + 3 + o.operandCount ≤ 32767) :
    ∃ i, i.opcode = o ∧ (s.afterWmem addr v).fetchInstr = .ok i ∧
      ∀ (k : Nat) (h : k < (encode i).length), 0 < k → (encode i)[k] = s.cell (s.pc + 3 + k) := by
  obtain ⟨i, hi, hf⟩ := State.fetchInstr_of_fits (ho.trans (State.cell_afterWmem_pc haddr).symm) hfit
  refine ⟨i, hi, hf, fun k h hk => ?_⟩
  have hcell : (encode i)[k] = (s.afterWmem addr v).cell (s.pc + 3 + k) := by
    simp [State.encode_of_fetchInstr hf]
  rw [hcell, State.cell_afterWmem_other (by omega)]

end

/-- Settles O56: the `wmem` is the one fetched before its store, and the next fetch finds the stored value as its opcode
word. -/
theorem storeOverTheNextOpcodeIsFetched : Obligations.StoreOverTheNextOpcodeIsFetched := by
  intro s a b addr v hrun hf ha hb
  refine ⟨s.afterWmem addr v, step_of_fetched_wmem hrun hf ha hb, ?_, rfl, fun haddr => ⟨?_, ?_, ?_, ?_⟩⟩
  · rw [State.cell_afterWmem_same, zext16, BitVec.ofNat_toNat]
  · intro o ho hfit
    obtain ⟨i, hi, hnext, hcells⟩ := State.fetchInstr_afterWmem haddr ho hfit
    exact ⟨i, hi, hcells, step_of_fetched hrun hnext⟩
  · intro o ho hover
    exact step_of_fetch_fault hrun
      (State.fetchInstr_of_not_fits (ho.trans (State.cell_afterWmem_pc haddr).symm) hover)
  · rintro rfl
    have hfit : s.pc + 3 + Opcode.halt.operandCount ≤ 32767 := by
      have := addr.isLt
      simp only [Opcode.operandCount]
      omega
    obtain ⟨i, hi, hnext, _⟩ := State.fetchInstr_afterWmem (v := 0) haddr rfl hfit
    obtain rfl := Instr.eq_halt_of_opcode hi
    exact (step_of_fetched (s := s.afterWmem addr 0) hrun hnext).trans (execHalt_eq _)
  · intro hbad
    have hpc : (s.afterWmem addr v).pc ≤ 32767 := by
      have := addr.isLt
      rw [State.afterWmem_pc]
      omega
    exact step_of_fetch_fault hrun
      (State.fetchInstr_of_bad_opcode hpc (by rw [State.cell_afterWmem_pc haddr]; omega))

end Sys2Proof.Machine
end

section
/-! PROOFS of the statements of spec/30_encoding.md: encoding and decoding undo each other (R70 to R74), operand slots
fall into three classes (R74 to R76), and a step runs the instruction at the pc, answers a next state and moves the pc as
the sequencer says (R80, R81, R83). -/

namespace Sys2Proof

/-! ### Encoding and decoding (R70 to R73) -/

section
variable (a b c : Operand) (rest : List Cell)

@[simp] theorem decodeF1_encodeOperand (f : Operand → Instr) :
    decodeF1 f (encodeOperand a :: rest) = .ok (f a, rest) := by
  simp [decodeF1]

@[simp] theorem decodeF2_encodeOperand (f : Operand → Operand → Instr) :
    decodeF2 f (encodeOperand a :: encodeOperand b :: rest) = .ok (f a b, rest) := by
  simp [decodeF2]

@[simp] theorem decodeF3_encodeOperand (f : Operand → Operand → Operand → Instr) :
    decodeF3 f (encodeOperand a :: encodeOperand b :: encodeOperand c :: rest) = .ok (f a b c, rest) := by
  simp [decodeF3]

end

/-- Decoding reads back an encoded instruction, whatever cells follow it. -/
@[simp] theorem decode_encode_append (i : Instr) (rest : List Cell) : decode (encode i ++ rest) = .ok (i, rest) := by
  cases i with
  | halt | ret | noop => exact decode_cons_opcode _ rest
  | push a | pop a | jmp a | call a | out a | inp a =>
    exact (decode_cons_opcode _ _).trans (decodeF1_encodeOperand a rest _)
  | set a b | jt a b | jf a b | not a b | rmem a b | wmem a b =>
    exact (decode_cons_opcode _ _).trans (decodeF2_encodeOperand a b rest _)
  | eq a b c | gt a b c | add a b c | mult a b c | mod a b c | and a b c | or a b c =>
    exact (decode_cons_opcode _ _).trans (decodeF3_encodeOperand a b c rest _)

/-- No two instructions share an encoding. -/
theorem encode_injective : Function.Injective encode := by
  intro i j h
  have hdec : decode (encode i ++ []) = .ok (j, []) := by rw [h, decode_encode_append]
  rw [decode_encode_append] at hdec
  cases hdec
  rfl

/-- Cells that decode are the decoded instruction's encoding with the remainder after it. -/
theorem encode_of_decode {ws rest : List Cell} {i : Instr} (h : decode ws = .ok (i, rest)) : encode i ++ rest = ws := by
  cases ws with
  | nil => cases h
  | cons op ws =>
    cases ho : Opcode.ofNumber op.toNat with
    | none => simp [decode, ho] at h
    | some o =>
      rw [decode_cons_of_ofNumber ho] at h
      rw [encode_of_decodeOperands h, Opcode.cell_of_ofNumber ho]

theorem decode_cons_of_bad_opcode {op : Cell} (h : 21 < op.toNat) (ws : List Cell) :
    decode (op :: ws) = .error .invalidOpcode := by
  simp [decode, Opcode.ofNumber_of_gt h]

/-- An encoding begins with its opcode word (R70). -/
theorem encode_eq_cons (i : Instr) : ∃ ws, encode i = i.opcode.cell :: ws ∧ ws.length = i.opcode.operandCount := by
  cases i <;> exact ⟨_, rfl, rfl⟩

/-- Settles O1: each format reads back the operands it was given. -/
theorem decodeOfEncodeIsTheInstruction : Obligations.DecodeOfEncodeIsTheInstruction :=
  decode_encode_append

/-- Settles O2: the opcode word and the operand words are each read back from what they decode to. -/
theorem decodedCellsAreTheEncoding : Obligations.DecodedCellsAreTheEncoding :=
  fun _ _ _ h => (encode_of_decode h).symm

/-- Settles O7, by evaluating the decoder on each word. -/
theorem writtenOutWordsDecode : Obligations.WrittenOutWordsDecode := by
  unfold Obligations.WrittenOutWordsDecode
  decide

/-! ### Operand classes by their bits (R74, R84) -/

section
variable (v : Cell)

theorem low15_eq_extract : low15 v = v.extractLsb' 0 15 := by
  apply BitVec.eq_of_toNat_eq
  rw [low15_toNat, BitVec.extractLsb'_toNat, Nat.shiftRight_zero]

/-- Bit 15 is clear in the literals and in nothing else. -/
theorem Cell.bit15_eq_false_iff : v.getLsbD 15 = false ↔ v.toNat ≤ 32767 := by
  have hmsb : v.getLsbD 15 = decide (32768 ≤ v.toNat) := v.msb_eq_decide
  rw [hmsb, decide_eq_false_iff_not]
  omega

/-- Bits 14..3 of a cell are its number divided by 8, modulo 2^12. -/
theorem Cell.bits14to3_eq_zero_iff : v.extractLsb' 3 12 = 0 ↔ v.toNat / 8 % 4096 = 0 := by
  rw [← BitVec.toNat_inj, BitVec.extractLsb'_toNat, Nat.shiftRight_eq_div_pow]
  rfl

/-- The registers are the cells with bit 15 set and bits 14..3 clear. -/
theorem Cell.isRegister_iff :
    (32768 ≤ v.toNat ∧ v.toNat ≤ 32775) ↔ (v.getLsbD 15 = true ∧ v.extractLsb' 3 12 = 0) := by
  have hv := v.isLt
  rw [Cell.bits14to3_eq_zero_iff, ← Bool.not_eq_false, Cell.bit15_eq_false_iff]
  omega

end

/-- An encoding counted from 32768 is the register of that index. -/
theorem decodeOperand_of_toNat_eq {v : Cell} {r : RegIndex} (h : v.toNat = 32768 + r.val) :
    decodeOperand v = .reg r := by
  have hv : v = encodeOperand (.reg r) := BitVec.eq_of_toNat_eq (h.trans (encodeOperand_reg_toNat r).symm)
  rw [hv, decodeOperand_encodeOperand]

/-- Settles O4: the ranges by the decoder's own cases, the bit tests by what each bit field is of the number. -/
theorem operandSlotsFallIntoThreeClasses : Obligations.OperandSlotsFallIntoThreeClasses := by
  intro v
  refine ⟨(Cell.bit15_eq_false_iff v).symm, Cell.isRegister_iff v, fun hlit => ⟨?_, ?_⟩, fun hlo hhi => ?_,
    fun hinv => ?_⟩
  · rw [decodeOperand_literal hlit, low15_eq_extract]
  · rw [← low15_eq_extract, low15_toNat]
    omega
  · have hr : v.toNat - 32768 < 8 := by omega
    refine ⟨⟨v.toNat - 32768, hr⟩, decodeOperand_of_toNat_eq (by change _ = 32768 + (v.toNat - 32768); omega), rfl, ?_⟩
    rw [BitVec.extractLsb'_toNat, Nat.shiftRight_zero]
    change v.toNat - 32768 = v.toNat % 8
    omega
  · exact ⟨_, decodeOperand_invalid hinv⟩

end Sys2Proof

namespace Sys2Proof.Machine

/-! ### Value and destination slots (R75, R76) -/

/-- Settles O5, by the class of the encoding. -/
theorem valueOperandResolvesByEncoding : Obligations.ValueOperandResolvesByEncoding := by
  intro s v
  refine ⟨fun hlit => ?_, fun r hreg => ?_, fun hinv => ?_, fun w _ => Nat.le_of_lt_succ w.isLt⟩
  · rw [decodeOperand_literal hlit, State.resolve_lit, low15, BitVec.ofNat_toNat]
  · rw [decodeOperand_of_toNat_eq hreg, State.resolve_reg]
  · rw [decodeOperand_invalid hinv, State.resolve_invalid]

/-- Settles O6: what is no register is a literal below the registers or invalid above them. -/
theorem destinationOperandNamesItsRegister : Obligations.DestinationOperandNamesItsRegister := by
  refine fun v => ⟨fun r hreg => by rw [decodeOperand_of_toNat_eq hreg, destReg_reg], fun hout => ?_⟩
  by_cases hlit : v.toNat ≤ 32767
  · rw [decodeOperand_literal hlit, destReg_lit]
  · rw [decodeOperand_invalid (by omega), destReg_invalid]

/-! ### Fetch and step (R72, R80, R83) -/

/-- Settles O3: the decoder by the opcode's row, the step by its fetch. -/
theorem opcodeWordSelectsItsRowOrFaults : Obligations.OpcodeWordSelectsItsRowOrFaults := by
  refine ⟨fun op ws => ⟨fun hle => ?_, fun hgt => decode_cons_of_bad_opcode hgt ws⟩, fun s hrun hpc hbad => ?_⟩
  · obtain ⟨o, ho⟩ := Opcode.ofNumber_of_le hle
    exact ⟨o, Opcode.number_of_ofNumber ho, decode_cons_of_ofNumber ho ws⟩
  · exact step_of_fetch_fault hrun (State.fetchInstr_of_bad_opcode hpc hbad)

/-- An instruction whose encoding stands at the pc, all of it inside memory, is fetched: its opcode's row is, and the
cells of that row have one reading. -/
theorem State.fetchInstr_of_encoding_at_pc {s : State} {i : Instr}
    (hcells : ∀ (k : Nat) (h : k < (encode i).length), s.pc + k ≤ 32767 ∧ s.cell (s.pc + k) = (encode i)[k]) :
    s.fetchInstr = .ok i := by
  obtain ⟨ws, henc, hlen⟩ := encode_eq_cons i
  have hlength : (encode i).length = i.length := by rw [henc, List.length_cons, hlen, Instr.length, Nat.add_comm]
  have hop : i.opcode.number = (s.cell s.pc).toNat := by
    have h0 : s.cell s.pc = i.opcode.cell := by simpa [henc] using (hcells 0 (by simp [henc])).2
    rw [h0, Opcode.cell_toNat]
  have hfit : s.pc + i.opcode.operandCount ≤ 32767 :=
    (hcells i.opcode.operandCount (by rw [hlength, Instr.length]; omega)).1
  obtain ⟨j, hj, hf⟩ := State.fetchInstr_of_fits hop hfit
  have hji : encode j = encode i := by
    rw [State.encode_of_fetchInstr hf, Instr.length, hj]
    refine List.ext_getElem (by simp [hlength, Instr.length]) fun k _ hk => ?_
    simp [(hcells k hk).2]
  rw [hf, encode_injective hji]

/-- Settles O8, by the fetch of what stands at the pc. -/
theorem stepRunsTheInstructionAtPc : Obligations.StepRunsTheInstructionAtPc :=
  fun _ _ hrun hcells => step_of_fetched hrun (State.fetchInstr_of_encoding_at_pc hcells)

/-- Every instruction answers a next state, a fault it takes included (R83, R211). -/
theorem exec_answers_next (i : Instr) (s : State) : ∃ t, exec i s = .next t := by
  rcases exec_fault_cases i s with ⟨t, h, _⟩ | ⟨k, _, h⟩ | ⟨_, h⟩ <;> exact ⟨_, h⟩

/-- Settles O9: a core that has ended answers itself, a failed fetch its fault, and else the instruction answers. -/
theorem everyStepAnswersANextState : Obligations.EveryStepAnswersANextState := by
  refine ⟨fun s => ?_, exec_answers_next⟩
  cases hst : s.status with
  | halted => exact ⟨s, step_of_ended (.inl hst)⟩
  | faulted => exact ⟨s, step_of_ended (.inr hst)⟩
  | running =>
    cases hf : s.fetchInstr with
    | error k => exact ⟨_, step_of_fetch_fault hst hf⟩
    | ok i => exact step_of_fetched hst hf ▸ exec_answers_next i s

/-! ### Where the pc goes (R26, R81, D6, D11) -/

section
variable {i : Instr} {a b : Operand} {s t : State}

/-- A fault leaves the pc where it was (R211). -/
theorem Effect.pc_of_faulted (h : Effect i s t) (hrun : s.status = .running) (ht : t.status = .faulted) :
    t.pc = s.pc := by
  have hne : s.status ≠ .faulted := by simp [hrun]
  cases h with
  | raised | inputEnded => rfl
  | halt => cases ht
  | jt | jf => split at ht <;> exact absurd ht hne
  | _ => exact absurd ht hne

/-- `jmp` and `call` go to their target's value (R140, R180). -/
theorem Effect.pc_of_target (h : Effect i s t) (ht : t.status ≠ .faulted) (hi : i = .jmp a ∨ i = .call a) :
    ∃ v, s.resolve a = .ok v ∧ t.pc = v.toNat := by
  cases h with
  | raised | inputEnded => exact absurd rfl ht
  | jmp _ _ v ha | call _ _ v ha => rcases hi with hi | hi <;> cases hi; exact ⟨v, ha, rfl⟩
  | wrote _ _ _ _ hrow => rcases hi with rfl | rfl <;> simp [Instr.opcode] at hrow
  | _ => simp at hi

/-- `jt` goes to its target's value if its condition is not zero (R141). -/
theorem Effect.pc_of_jt (h : Effect (.jt a b) s t) (ht : t.status ≠ .faulted) :
    ∃ c v, s.resolve a = .ok c ∧ s.resolve b = .ok v ∧ t.pc = if c ≠ 0 then v.toNat else s.pc + 3 := by
  cases h with
  | raised => exact absurd rfl ht
  | wrote _ _ _ _ hi => simp [Instr.opcode] at hi
  | jt _ _ _ c v ha hb => exact ⟨c, v, ha, hb, by simp [isNonZero, apply_ite State.pc]⟩

/-- `jf` goes to its target's value if its condition is zero (R142). -/
theorem Effect.pc_of_jf (h : Effect (.jf a b) s t) (ht : t.status ≠ .faulted) :
    ∃ c v, s.resolve a = .ok c ∧ s.resolve b = .ok v ∧ t.pc = if c = 0 then v.toNat else s.pc + 3 := by
  cases h with
  | raised => exact absurd rfl ht
  | wrote _ _ _ _ hi => simp [Instr.opcode] at hi
  | jf _ _ _ c v ha hb => exact ⟨c, v, ha, hb, by simp [isNonZero, apply_ite State.pc]⟩

/-- `ret` goes to the entry it pops (R181). -/
theorem Effect.pc_of_ret (h : Effect .ret s t) (ht : t.status ≠ .faulted) :
    ∃ below v, s.stack = below ++ [v] ∧ t.pc = v.toNat := by
  cases h with
  | raised => exact absurd rfl ht
  | wrote _ _ _ _ hi => simp [Instr.opcode] at hi
  | ret _ below v hs => exact ⟨below, v, hs, rfl⟩

/-- An `in` goes past its 2 cells, or is held where it stands (R39, R191). -/
theorem Effect.pc_of_inp (h : Effect i s t) (ht : t.status ≠ .faulted) (hi : i.opcode = .inp) :
    t.pc = s.pc + 2 ∨ (t.pc = s.pc ∧ t.inputWait = true) := by
  cases h with
  | raised | inputEnded => exact absurd rfl ht
  | held => exact .inr ⟨rfl, rfl⟩
  | received => exact .inl rfl
  | wrote _ _ _ _ hrow => simp [hi] at hrow
  | _ => cases hi

/-- Every other instruction goes past its own cells, `halt` included (R81, D11). -/
theorem Effect.pc_of_default (h : Effect i s t) (ht : t.status ≠ .faulted)
    (hi : i.opcode ∉ [.jmp, .jt, .jf, .call, .ret, .inp]) : t.pc = s.pc + i.length := by
  cases h with
  | raised | inputEnded => exact absurd rfl ht
  | held | received | jmp | jt | jf | call | ret => simp [Instr.opcode] at hi
  | _ => rfl

end

/-- Settles O46, by the ways an instruction answers a next state. -/
theorem pcFollowsTheSequencer : Obligations.PcFollowsTheSequencer := by
  intro i s t hrun hexec
  have h : Effect i s t := effect_of_exec hexec
  refine ⟨h.pc_of_faulted hrun, fun ht => ⟨fun _ => h.pc_of_target ht, ?_, ?_, ?_, h.pc_of_inp ht,
    h.pc_of_default ht⟩⟩
  · rintro a b rfl; exact h.pc_of_jt ht
  · rintro a b rfl; exact h.pc_of_jf ht
  · rintro rfl; exact h.pc_of_ret ht

end Sys2Proof.Machine
end

section
/-! PROOFS of the statements of spec/40_machine_control.md: `halt` stops the core and moves the pc past itself (R110, D11),
`noop` moves the pc and does nothing else (R111). -/

namespace Sys2Proof.Machine

/-- Settles O20: `halt` enters Halted and takes the default advance of 1 (R81), which writes nothing but the pc. -/
theorem haltStopsExecution : Obligations.HaltStopsExecution :=
  ⟨rfl, execHalt_eq⟩

/-- Settles O21: `noop` is the default advance of 1 (R81), which writes nothing but the pc. -/
theorem noopOnlyAdvancesPc : Obligations.NoopOnlyAdvancesPc :=
  ⟨rfl, execNoop_eq⟩

end Sys2Proof.Machine
end

section
/-! PROOFS of the statements of spec/41_register_stack.md: what `set`, `push` and `pop` do and leave unchanged (R120 to
R122), and that a pop takes back what a push left on top (L1-5). -/

namespace Sys2Proof.Machine

/-- Settles O22: each of the two things `set` can do decides every clause. -/
theorem setCopiesItsValue : Obligations.SetCopiesItsValue := by
  refine fun a b s => ⟨rfl, ?_⟩
  rcases execSet_cases a b s with ⟨i, v, rfl, hv, e⟩ | ⟨hbad, e⟩
  · simp [exec, e, hv, badValue_iff s, State.setReg_eq, State.advance]
  · refine ⟨?_, fun _ => e⟩
    rintro i v rfl hv
    simp [badValue_iff s, hv] at hbad

/-- Settles O23: each of the three things `push` can do decides every clause. -/
theorem pushAppendsItsValue : Obligations.PushAppendsItsValue := by
  refine fun a s => ⟨rfl, ?_⟩
  rw [badValue_iff s]
  rcases execPush_cases a s with ⟨v, hv, hroom, e⟩ | ⟨v, hv, hfull, e⟩ | ⟨hbad, e⟩
  · simp [exec, e, hv, hroom, State.advance]
  · simp [exec, e, hv, hfull, State.raised]
  · simp [exec, e, (badValue_iff s a).mp hbad, State.raised]

/-- Settles O24: each of the three things `pop` can do decides every clause. -/
theorem popMovesTheTopToItsRegister : Obligations.PopMovesTheTopToItsRegister := by
  refine fun a s => ⟨rfl, ?_⟩
  rcases execPop_cases a s with ⟨i, rest, v, rfl, hs, e⟩ | ⟨i, rfl, hs, e⟩ | ⟨hbad, e⟩
  · simp [exec, e, hs, State.setReg_eq, State.advance]
  · simp [exec, e, hs, State.raised]
  · refine ⟨?_, ?_, fun _ => e⟩
    · rintro i _ _ rfl; exact absurd hbad (not_badDest_reg i)
    · rintro i rfl; exact absurd hbad (not_badDest_reg i)

/-- Settles O53: the push leaves its value on top of the old stack, so a pop from that stack takes the value and leaves
the old stack, whatever else has changed between. -/
theorem popAfterPushGivesTheValueBack : Obligations.PopAfterPushGivesTheValueBack := by
  intro s a v r hroom hv
  obtain ⟨_, hpush, _⟩ := pushAppendsItsValue a s
  have hpop (u : State) (hu : u.stack = s.stack ++ [v]) :
      exec (.pop (.reg r)) u = .next { u with regs := u.regs.set r.val v, stack := s.stack, pc := u.pc + 2 } := by
    obtain ⟨_, htop, _⟩ := popMovesTheTopToItsRegister (.reg r) u
    exact htop r s.stack v rfl hu
  exact ⟨_, hpush v hv hroom, rfl, hpop, hpop _ rfl⟩

end Sys2Proof.Machine
end

section
/-! PROOFS of the statements of spec/42_compare.md: what `eq` and `gt` write and leave unchanged (R130, R131), from what
every instruction of the shape `binaryOp` does with legal slots and with a bad one. -/

namespace Sys2Proof.Machine

/-- The path of `binaryOp` on which no check fails. -/
theorem binaryOp_of_ok {f : Word → Word → Except FaultKind Word} {b c : Operand} {s : State} {vb vc r : Word}
    (hb : s.resolve b = .ok vb) (hc : s.resolve c = .ok vc) (hf : f vb vc = .ok r) (i : RegIndex) :
    binaryOp f (.reg i) b c s = .next { s with regs := s.regs.set i.val r, pc := s.pc + 4 } := by
  calc binaryOp f (.reg i) b c s
    _ = .next ((s.setReg i r).advance 4) := by simp [binaryOp, hb, hc, hf, bind, Except.bind, pure, Except.pure]
    _ = _ := by rw [State.setReg_eq]; rfl

/-- The slots are checked before the result is computed, so a bad one decides the fault whatever the result (R202). -/
theorem binaryOp_of_bad_slot {a b c : Operand} (hbad : badDest a ∨ badValue b ∨ badValue c)
    (f : Word → Word → Except FaultKind Word) (s : State) :
    binaryOp f a b c s = .next (s.raised .invalidOperand) := by
  rcases binaryOp_cases f a b c s with ⟨_, _, _, _, rfl, hb, hc, _⟩ | ⟨_, _, _, _, rfl, hb, hc, _⟩ | ⟨_, e⟩
  · simp [badValue_iff s, hb, hc] at hbad
  · simp [badValue_iff s, hb, hc] at hbad
  · exact e

theorem aluEq_eq_ite (b c : Word) : aluEq b c = if b = c then 1 else 0 := by
  simp [aluEq, flagWord, BitVec.toNat_inj]

theorem aluGt_eq_ite (b c : Word) : aluGt b c = if c.toNat < b.toNat then 1 else 0 := by
  simp [aluGt, flagWord]

/-- Settles O25: `eq` is the `binaryOp` whose result is the flag of equality, which is never refused. -/
theorem eqWritesOneOrZero : Obligations.EqWritesOneOrZero := by
  refine fun a b c s => ⟨rfl, ?_, fun hbad => binaryOp_of_bad_slot hbad _ s⟩
  rintro i vb vc rfl hb hc
  rw [← aluEq_eq_ite]
  exact binaryOp_of_ok hb hc rfl i

/-- Settles O26: `gt` is the `binaryOp` whose result is the flag of the strict unsigned order, which is never refused. -/
theorem gtComparesUnsigned : Obligations.GtComparesUnsigned := by
  refine fun a b c s => ⟨rfl, ?_, fun hbad => binaryOp_of_bad_slot hbad _ s⟩
  rintro i vb vc rfl hb hc
  rw [← aluGt_eq_ite]
  exact binaryOp_of_ok hb hc rfl i

end Sys2Proof.Machine
end

section
/-! PROOFS of the statements of spec/43_jump.md: where `jmp`, `jt` and `jf` leave the pc and that they change nothing
else (R140 to R142), from what every conditional jump does with legal slots and with a bad one. -/

namespace Sys2Proof.Machine

/-- The path of `condJump` on which no check fails: only the pc is written, whichever way the jump goes. -/
theorem condJump_of_ok {a b : Operand} {s : State} {c t : Word} (hc : s.resolve a = .ok c) (ht : s.resolve b = .ok t)
    (taken : Word → Bool) :
    condJump taken a b s = .next { s with pc := if taken c then t.toNat else s.pc + 3 } := by
  calc condJump taken a b s
    _ = .next (if taken c then s.jump t else s.advance 3) := by
      simp [condJump, hc, ht, bind, Except.bind, pure, Except.pure]
    _ = _ := by cases taken c <;> rfl

/-- Both slots are checked before the condition is looked at, so a bad one decides the fault whichever way the jump would
go (R78, D3). -/
theorem condJump_of_bad_slot {a b : Operand} (hbad : badValue a ∨ badValue b) (taken : Word → Bool) (s : State) :
    condJump taken a b s = .next (s.raised .invalidOperand) := by
  rcases condJump_cases taken a b s with ⟨c, t, hc, ht, _⟩ | ⟨_, e⟩
  · simp [badValue_iff s, hc, ht] at hbad
  · exact e

/-- Settles O27: each of the two things `jmp` can do decides both clauses. -/
theorem jmpGoesToItsTarget : Obligations.JmpGoesToItsTarget := by
  refine fun a s => ⟨rfl, ?_⟩
  rw [badValue_iff s]
  rcases execJmp_cases a s with ⟨t, ht, e⟩ | ⟨hbad, e⟩
  · simp [exec, e, ht, State.jump]
  · simp [exec, e, (badValue_iff s a).mp hbad, State.raised]

/-- Settles O28: `jt` is the conditional jump taken on a non-zero value. -/
theorem jtJumpsIfNotZero : Obligations.JtJumpsIfNotZero := by
  refine fun a b s => ⟨rfl, fun c t hc ht => ?_, fun hbad => condJump_of_bad_slot hbad _ s⟩
  simp [exec, execJt, condJump_of_ok hc ht, isNonZero]

/-- Settles O29: `jf` is the conditional jump taken on zero. -/
theorem jfJumpsIfZero : Obligations.JfJumpsIfZero := by
  refine fun a b s => ⟨rfl, fun c t hc ht => ?_, fun hbad => condJump_of_bad_slot hbad _ s⟩
  simp [exec, execJf, condJump_of_ok hc ht, isNonZero]

end Sys2Proof.Machine
end

section
/-! PROOFS of the statements of spec/44_arith_logic.md: what `add`, `mult`, `mod`, `and`, `or` and `not` write and leave
unchanged (R151 to R156), and that complementing, adding 1 and adding subtracts (R150). -/

namespace Sys2Proof.Machine

theorem aluAdd_eq_ofNat_mod (b c : Word) : aluAdd b c = BitVec.ofNat 15 ((b.toNat + c.toNat) % 32768) := by
  simp [aluAdd, reduce, BitVec.toNat_eq]

theorem aluMult_eq_ofNat_mod (b c : Word) : aluMult b c = BitVec.ofNat 15 ((b.toNat * c.toNat) % 32768) := by
  simp [aluMult, reduce, BitVec.toNat_eq]

theorem aluMod_of_ne_zero {c : Word} (hc : c ≠ 0) (b : Word) : aluMod b c = .ok (BitVec.ofNat 15 (b.toNat % c.toNat)) :=
  if_neg fun h => hc (BitVec.eq_of_toNat_eq h)

theorem aluAnd_eq_ofNat_and (b c : Word) : aluAnd b c = BitVec.ofNat 15 (b.toNat &&& c.toNat) := by
  rw [aluAnd, ← BitVec.toNat_and, BitVec.ofNat_toNat, BitVec.setWidth_eq]

theorem aluOr_eq_ofNat_or (b c : Word) : aluOr b c = BitVec.ofNat 15 (b.toNat ||| c.toNat) := by
  rw [aluOr, ← BitVec.toNat_or, BitVec.ofNat_toNat, BitVec.setWidth_eq]

theorem aluNot_eq_ofNat_sub (b : Word) : aluNot b = BitVec.ofNat 15 (32767 - b.toNat) := by
  have hnot : (~~~b).toNat = 32767 - b.toNat := BitVec.toNat_not
  rw [aluNot, ← hnot, BitVec.ofNat_toNat, BitVec.setWidth_eq]

/-- With legal slots, a refusal of the result's own check is the fault of the instruction. -/
theorem binaryOp_of_refused {f : Word → Word → Except FaultKind Word} {b c : Operand} {s : State} {vb vc : Word}
    {k : FaultKind} (hb : s.resolve b = .ok vb) (hc : s.resolve c = .ok vc) (hf : f vb vc = .error k) (i : RegIndex) :
    binaryOp f (.reg i) b c s = .next (s.raised k) := by
  simp [binaryOp, hb, hc, hf, bind, Except.bind]

/-- What `binaryOp` does with a result that is never refused: it writes the result and advances the pc, or a bad slot is
its fault. -/
theorem binaryOp_of_total {f : Word → Word → Except FaultKind Word} {g : Word → Word → Word}
    (hf : ∀ vb vc, f vb vc = .ok (g vb vc)) (a b c : Operand) (s : State) :
    (∀ (i : RegIndex) (vb vc : Word), a = .reg i → s.resolve b = .ok vb → s.resolve c = .ok vc →
      binaryOp f a b c s = .next { s with regs := s.regs.set i.val (g vb vc), pc := s.pc + 4 }) ∧
    (badDest a ∨ badValue b ∨ badValue c → binaryOp f a b c s = .next (s.raised .invalidOperand)) := by
  refine ⟨?_, fun hbad => binaryOp_of_bad_slot hbad f s⟩
  rintro i vb vc rfl hb hc
  exact binaryOp_of_ok hb hc (hf vb vc) i

/-- The path of `add` on which no check fails. -/
theorem execAdd_of_ok {b c : Operand} {s : State} {vb vc : Word} (hb : s.resolve b = .ok vb) (hc : s.resolve c = .ok vc)
    (i : RegIndex) :
    execAdd (.reg i) b c s = .next { s with regs := s.regs.set i.val (aluAdd vb vc), pc := s.pc + 4 } :=
  binaryOp_of_ok hb hc rfl i

/-- The path of `not` on which no check fails. -/
theorem execNot_of_ok {b : Operand} {s : State} {vb : Word} (hb : s.resolve b = .ok vb) (i : RegIndex) :
    execNot (.reg i) b s = .next { s with regs := s.regs.set i.val (aluNot vb), pc := s.pc + 3 } := by
  calc execNot (.reg i) b s
    _ = .next ((s.setReg i (aluNot vb)).advance 3) := by simp [execNot, hb, bind, Except.bind, pure, Except.pure]
    _ = _ := by rw [State.setReg_eq]; rfl

/-- Settles O30: `add` is the `binaryOp` whose result is the reduced sum, which is never refused. -/
theorem addIsModulo32768 : Obligations.AddIsModulo32768 :=
  fun a b c s => ⟨rfl, binaryOp_of_total (fun vb vc => congrArg Except.ok (aluAdd_eq_ofNat_mod vb vc)) a b c s⟩

/-- Settles O31: `mult` is the `binaryOp` whose result is the reduced product, which is never refused. -/
theorem multIsModulo32768 : Obligations.MultIsModulo32768 :=
  fun a b c s => ⟨rfl, binaryOp_of_total (fun vb vc => congrArg Except.ok (aluMult_eq_ofNat_mod vb vc)) a b c s⟩

/-- Settles O32: `mod` is the `binaryOp` whose result is the remainder, refused for the divisor 0 alone. -/
theorem modWritesTheRemainder : Obligations.ModWritesTheRemainder := by
  refine fun a b c s => ⟨rfl, ?_, ?_, fun hbad => binaryOp_of_bad_slot hbad _ s⟩
  · rintro i vb vc rfl hb hc hne
    exact binaryOp_of_ok hb hc (aluMod_of_ne_zero hne vb) i
  · rintro i vb rfl hb hc
    exact binaryOp_of_refused hb hc rfl i

/-- Settles O33: `and` is the `binaryOp` whose result is the bitwise AND, which is never refused. -/
theorem andIsBitwise : Obligations.AndIsBitwise :=
  fun a b c s => ⟨rfl, binaryOp_of_total (fun vb vc => congrArg Except.ok (aluAnd_eq_ofNat_and vb vc)) a b c s⟩

/-- Settles O34: `or` is the `binaryOp` whose result is the bitwise OR, which is never refused. -/
theorem orIsBitwise : Obligations.OrIsBitwise :=
  fun a b c s => ⟨rfl, binaryOp_of_total (fun vb vc => congrArg Except.ok (aluOr_eq_ofNat_or vb vc)) a b c s⟩

/-- Settles O35: each of the two things `not` can do decides every clause. -/
theorem notIsTheFifteenBitComplement : Obligations.NotIsTheFifteenBitComplement := by
  refine fun a b s => ⟨rfl, ?_, ?_⟩
  · rintro i vb rfl hb
    rw [← aluNot_eq_ofNat_sub]
    exact execNot_of_ok hb i
  · intro hbad
    rcases execNot_cases a b s with ⟨i, vb, rfl, hb, _⟩ | ⟨_, e⟩
    · simp [badValue_iff s, hb] at hbad
    · exact e

/-- A register operand reads what was last written to it. -/
theorem State.resolve_set_same (r : RegIndex) (s : State) (w : Word) (n : Nat) :
    State.resolve { s with regs := s.regs.set r.val w, pc := n } (.reg r) = .ok w := by
  simp

/-- A write to register `r` is not seen by an operand other than that register. -/
theorem State.resolve_set_other {b : Operand} {r : RegIndex} (hne : b ≠ .reg r) (s : State) (w : Word) (n : Nat) :
    State.resolve { s with regs := s.regs.set r.val w, pc := n } b = s.resolve b := by
  cases b with
  | lit v => rfl
  | invalid k => rfl
  | reg j =>
    have hrj : r.val ≠ j.val := fun e => hne (by rw [Fin.ext e])
    simp [hrj]

/-- What operands resolve to after `not`: its destination to the complement, every other operand to what it was. -/
theorem execNot_resolve {b : Operand} {s : State} {vb : Word} (hb : s.resolve b = .ok vb) (i : RegIndex) :
    ∃ t, execNot (.reg i) b s = .next t ∧ t.resolve (.reg i) = .ok (aluNot vb) ∧
      ∀ d, d ≠ .reg i → t.resolve d = s.resolve d :=
  ⟨_, execNot_of_ok hb i, State.resolve_set_same .., fun _ hd => State.resolve_set_other hd ..⟩

/-- What operands resolve to after `add`: its destination to the sum, every other operand to what it was. -/
theorem execAdd_resolve {b c : Operand} {s : State} {vb vc : Word} (hb : s.resolve b = .ok vb)
    (hc : s.resolve c = .ok vc) (i : RegIndex) :
    ∃ t, execAdd (.reg i) b c s = .next t ∧ t.resolve (.reg i) = .ok (aluAdd vb vc) ∧
      ∀ d, d ≠ .reg i → t.resolve d = s.resolve d :=
  ⟨_, execAdd_of_ok hb hc i, State.resolve_set_same .., fun _ hd => State.resolve_set_other hd ..⟩

/-- The identity of R150: adding the complement plus 1 subtracts. -/
theorem aluAdd_complement_add_one (b c : Word) : aluAdd b (aluAdd (aluNot c) 1) = b - c := by
  calc aluAdd b (aluAdd (aluNot c) 1)
    _ = b + (~~~c + 1#15) := rfl
    _ = b - c := by rw [← BitVec.neg_eq_not_add, ← BitVec.sub_eq_add_neg]

theorem Word.toNat_sub_eq_emod (b c : Word) : ((b - c).toNat : Int) = ((b.toNat : Int) - (c.toNat : Int)) % 32768 := by
  rw [BitVec.toNat_sub]
  omega

/-- Settles O55: the `not` and the first `add` leave the complement plus 1 in register r and every other operand as it
was, so the second `add` reads b's first value and writes the difference. -/
theorem subtractionByComplement : Obligations.SubtractionByComplement := by
  intro s b c vb vc q r hb hc hne
  obtain ⟨t, hnot, htr, htother⟩ := execNot_resolve hc r
  obtain ⟨u, hinc, hur, huother⟩ := execAdd_resolve htr (t.resolve_lit 1) r
  have hbu : u.resolve b = .ok vb := by rw [huother b hne, htother b hne, hb]
  obtain ⟨v, hadd, hvq, _⟩ := execAdd_resolve hbu hur q
  refine ⟨t, u, v, hnot, hinc, hadd, ?_⟩
  rw [aluAdd_complement_add_one, State.resolve_reg] at hvq
  rw [Except.ok.inj hvq, Word.toNat_sub_eq_emod]

end Sys2Proof.Machine
end

section
/-! PROOFS of the statements of spec/45_memory_access.md: what `rmem` loads or refuses (R170, D8), and that `wmem` stores
one cell and leaves every other cell and every register unchanged (R171). -/

namespace Sys2Proof.Machine

theorem low15_eq_ofNat (v : Cell) : low15 v = BitVec.ofNat 15 v.toNat :=
  (BitVec.ofNat_toNat ..).symm

theorem zext16_eq_ofNat (v : Word) : zext16 v = BitVec.ofNat 16 v.toNat :=
  (BitVec.ofNat_toNat ..).symm

/-- A widened Word has bit 15 clear (R51). -/
theorem getLsbD_zext16_top (v : Word) : (zext16 v).getLsbD 15 = false := by
  rw [zext16, BitVec.getLsbD_setWidth, BitVec.getLsbD_of_ge v 15 le_rfl, Bool.and_false]

theorem not_badValue_of_resolve {s : State} {a : Operand} {v : Word} (h : s.resolve a = .ok v) : ¬ badValue a := by
  simp [badValue_iff s, h]

/-- Settles O36: each of the three things `rmem` can do decides every clause. -/
theorem rmemReadsACell : Obligations.RmemReadsACell := by
  refine fun a b s => ⟨rfl, ?_⟩
  rcases execRmem_cases a b s with ⟨i, addr, rfl, hb, hv, e⟩ | ⟨i, addr, rfl, hb, hv, e⟩ | ⟨hbad, e⟩
  · simp [exec, e, hb, hv, not_badValue_of_resolve hb, State.setReg_eq, State.advance, low15_eq_ofNat]
  · simp [exec, e, hb, hv, not_badValue_of_resolve hb, State.raised]
  · have hlegal {i : RegIndex} {addr : Word} (ha : a = .reg i) (hb : s.resolve b = .ok addr) : False :=
      hbad.elim (ha ▸ not_badDest_reg i) (not_badValue_of_resolve hb)
    exact ⟨fun _ _ ha hb _ => (hlegal ha hb).elim, fun _ _ ha hb _ => (hlegal ha hb).elim, fun _ => e⟩

/-- The path of `wmem` on which no check fails. -/
theorem execWmem_of_ok {a b : Operand} {s : State} {addr v : Word} (ha : s.resolve a = .ok addr)
    (hb : s.resolve b = .ok v) : execWmem a b s = .next (s.afterWmem addr v) := by
  rcases execWmem_cases a b s with ⟨addr', v', ha', hb', e⟩ | ⟨hbad, _⟩
  · cases ha.symm.trans ha'
    cases hb.symm.trans hb'
    exact e
  · exact (hbad.elim (not_badValue_of_resolve ha) (not_badValue_of_resolve hb)).elim

/-- Both slots are checked before the store, so a bad one is the fault and no cell is written (R202). -/
theorem execWmem_of_bad_slot {a b : Operand} (hbad : badValue a ∨ badValue b) (s : State) :
    execWmem a b s = .next (s.raised .invalidOperand) := by
  rcases execWmem_cases a b s with ⟨addr, v, ha, hb, _⟩ | ⟨_, e⟩
  · exact (hbad.elim (not_badValue_of_resolve ha) (not_badValue_of_resolve hb)).elim
  · exact e

/-- Settles O37: with legal slots the next state is `afterWmem`, whose cells are read back by the laws of `Memory.put`. -/
theorem wmemWritesOneCell : Obligations.WmemWritesOneCell := by
  refine fun a b s => ⟨rfl, fun addr v ha hb => ?_, fun hbad => execWmem_of_bad_slot hbad s⟩
  refine ⟨s.afterWmem addr v, execWmem_of_ok ha hb, ?_, ?_, fun x hx => State.cell_afterWmem_other hx, rfl⟩
  · rw [State.cell_afterWmem_same, zext16_eq_ofNat]
  · rw [State.cell_afterWmem_same, getLsbD_zext16_top]

end Sys2Proof.Machine
end

section
/-! PROOFS of the statements of spec/46_call_return.md: what `call` and `ret` do and leave unchanged (R180, R181), and
that a `ret` goes back to just after the `call` whose return address is on top (L1-7). -/

namespace Sys2Proof.Machine

/-- Settles O38: each of the four things `call` can do decides every clause. -/
theorem callPushesTheReturnAddress : Obligations.CallPushesTheReturnAddress := by
  refine fun a s => ⟨rfl, ?_⟩
  rcases execCall_cases a s with ⟨t, ht, hpc, hroom, e⟩ | ⟨t, ht, hpc, hfull, e⟩ | ⟨t, ht, hpc, e⟩ | ⟨hbad, e⟩
  · simp [exec, e, ht, hpc, hroom, not_badValue_of_resolve ht, State.jump]
  · simp [exec, e, ht, hpc, hfull, not_badValue_of_resolve ht, State.raised]
  · have hpast : ¬ s.pc ≤ 32765 := by omega
    simp [exec, e, ht, hpc, hpast, not_badValue_of_resolve ht, State.raised]
  · simp [exec, e, (badValue_iff s a).mp hbad, State.raised]

/-- Settles O39: each of the two things `ret` can do decides both clauses. -/
theorem retPopsThePc : Obligations.RetPopsThePc := by
  refine ⟨rfl, fun s => ?_⟩
  rcases execRet_cases s with ⟨rest, v, hs, e⟩ | ⟨hs, e⟩
  · simp [exec, e, hs, State.jump]
  · simp [exec, e, hs, State.raised]

/-- A return address that is a Word loses nothing on the stack. -/
theorem returnAddress_toNat {n : Nat} (h : n + 2 ≤ 32767) : (BitVec.ofNat 15 (n + 2)).toNat = n + 2 := by
  rw [BitVec.toNat_ofNat]
  omega

/-- Settles O54: the call leaves its return address on top of the old stack, so a `ret` from that stack goes there and
leaves the old stack, whatever else has changed between. -/
theorem retAfterCallResumesAfterTheCall : Obligations.RetAfterCallResumesAfterTheCall := by
  intro s a v hv hpc hroom
  obtain ⟨_, hcall, _⟩ := callPushesTheReturnAddress a s
  obtain ⟨_, hret⟩ := retPopsThePc
  refine ⟨_, hcall v hv hpc hroom, rfl, fun u hu => ?_⟩
  obtain ⟨htop, _⟩ := hret u
  rw [htop s.stack _ hu, returnAddress_toNat hpc]

end Sys2Proof.Machine
end

section
/-! PROOFS of the statements of spec/47_io.md: what `out` and `in` do and leave unchanged (R190, R191). -/

namespace Sys2Proof.Machine

/-- Settles O40: each of the two things `out` can do decides both clauses. -/
theorem outEmitsItsValue : Obligations.OutEmitsItsValue := by
  refine fun a s => ⟨rfl, ?_⟩
  rcases execOut_cases a s with ⟨v, hv, e⟩ | ⟨hbad, e⟩
  · simp [exec, e, hv, not_badValue_of_resolve hv, State.emit, State.advance]
  · simp [exec, e, (badValue_iff s a).mp hbad, State.raised]

/-- Settles O41: each of the four things `in` can do decides every clause. -/
theorem inConsumesOneCode : Obligations.InConsumesOneCode := by
  refine fun a s => ⟨rfl, ?_⟩
  rcases execIn_cases a s with ⟨i, w, rfl, hcode, e⟩ | ⟨i, rfl, hcode, hend, e⟩ | ⟨i, rfl, hcode, hend, e⟩ | ⟨hbad, e⟩
  · simp [exec, e, hcode, State.setReg_eq, State.endInputWait, State.consumeInput, State.advance]
  · simp [exec, e, hcode, hend, State.endInputWait, State.raised]
  · simp [exec, e, hcode, hend, State.holdInput]
  · have hlegal {i : RegIndex} (ha : a = .reg i) : False := not_badDest_reg i (ha ▸ hbad)
    exact ⟨fun _ _ ha _ => (hlegal ha).elim, fun _ ha _ _ => (hlegal ha).elim, fun _ ha _ _ => (hlegal ha).elim,
      fun _ => e⟩

end Sys2Proof.Machine
end

section
/-! PROOFS of the statements of spec/60_exceptions.md: each fault is raised for its causes and for nothing else (R201 to
R208), taking one changes the status and the fault kind alone (R211), and an ended state is never left (R214). -/

namespace Sys2Proof.Machine

/-! ### Ended states (R214, R215) -/

/-- Settles O10, by induction on the number of steps. -/
theorem endedStatesNeverChange : Obligations.EndedStatesNeverChange := by
  intro s n hend
  induction n with
  | zero => exact runFor_zero s
  | succ n ih => rw [runFor_succ_of_next (step_of_ended hend), ih]

/-! ### Precision (R211) -/

/-- Settles O11: a failed fetch and a fault's cause leave all else as it was, the end of the input ends the wait. -/
theorem faultsArePrecise : Obligations.FaultsArePrecise := by
  intro s t hrun h ht
  rcases step_cases h with ⟨_, rfl⟩ | ⟨k, _, _, rfl⟩ | ⟨i, _, _, he⟩
  · rw [hrun] at ht; cases ht
  · exact ⟨k, rfl, rfl, .inl rfl⟩
  · rcases exec_fault_cases i s with ⟨u, e, _, hst⟩ | ⟨k, _, e⟩ | ⟨_, e⟩ <;>
      obtain rfl := Host.Outcome.next.inj (he.symm.trans e)
    · simp [hrun, ht] at hst
    · exact ⟨k, rfl, rfl, .inl rfl⟩
    · exact ⟨.inputExhausted, rfl, rfl, .inr ⟨rfl, rfl⟩⟩

/-! ### Which faults a fetch takes (R201, R203) -/

section
variable {s : State}

/-- A fetch fails in two ways only (R210, checks 1 to 3). -/
theorem State.kind_of_fetchInstr_error {k : FaultKind} (h : s.fetchInstr = .error k) :
    k = .invalidOpcode ∨ k = .invalidAddress := by
  rcases s.fetchInstr_cases with ⟨_, e⟩ | ⟨_, _, e⟩ | ⟨_, _, _, _, e⟩ | ⟨_, _, _, _, _, _, _, e⟩ <;>
    cases h.symm.trans e
  · exact .inr rfl
  · exact .inl rfl
  · exact .inr rfl

/-- A fetch takes InvalidOpcode for an opcode word above the table's, and for nothing else (R201). -/
theorem State.fetchInstr_eq_invalidOpcode_iff :
    s.fetchInstr = .error .invalidOpcode ↔ s.pc ≤ 32767 ∧ 22 ≤ (s.cell s.pc).toNat := by
  refine ⟨fun h => ?_, fun ⟨hpc, hbad⟩ => State.fetchInstr_of_bad_opcode hpc hbad⟩
  rcases s.fetchInstr_cases with ⟨_, e⟩ | ⟨hpc, hbad, _⟩ | ⟨_, _, _, _, e⟩ | ⟨_, _, _, _, _, _, _, e⟩
  · cases h.symm.trans e
  · exact ⟨hpc, hbad⟩
  · cases h.symm.trans e
  · cases h.symm.trans e

/-- A fetch takes InvalidAddress where the opcode word or an operand word is past the top of memory (R203, D6). -/
theorem State.fetchInstr_eq_invalidAddress_iff :
    s.fetchInstr = .error .invalidAddress ↔
      32767 < s.pc ∨
      (s.pc ≤ 32767 ∧ ∃ o, Opcode.ofNumber (s.cell s.pc).toNat = some o ∧ 32767 < s.pc + o.operandCount) := by
  rcases s.fetchInstr_cases with ⟨hpc, e⟩ | ⟨hpc, hbad, e⟩ | ⟨o, hpc, ho, hover, e⟩ | ⟨o, i, hpc, ho, hfit, _, _, e⟩
  · exact iff_of_true e (.inl hpc)
  · simp [e, hpc, Opcode.ofNumber_of_gt hbad]
  · exact iff_of_true e (.inr ⟨hpc, o, ho, hover⟩)
  · simp [e, hpc, ho, hfit]

end

/-! ### Each cause raises its fault (R202 to R208, R210) -/

section
variable {i : Instr} {s : State}

@[simp] theorem badSlot_dest (a : Operand) : badSlot (.dest, a) ↔ badDest a := Iff.rfl

@[simp] theorem badSlot_value (a : Operand) : badSlot (.value, a) ↔ badValue a := Iff.rfl

/-- A bad slot raises InvalidOperand whatever the instruction would do (R78, R202, D3). -/
theorem exec_of_bad_slot (h : ∃ p ∈ i.slots, badSlot p) : exec i s = .next (s.raised .invalidOperand) := by
  cases i with
  | halt | ret | noop => simp [Instr.slots] at h
  | eq a b c | gt a b c | add a b c | mult a b c | mod a b c | and a b c | or a b c =>
    exact binaryOp_of_bad_slot (by simpa [Instr.slots] using h) _ s
  | jt a b | jf a b => exact condJump_of_bad_slot (by simpa [Instr.slots] using h) _ s
  | wmem a b => exact execWmem_of_bad_slot (by simpa [Instr.slots] using h) s
  | set a b =>
    obtain ⟨_, _, hbad⟩ := setCopiesItsValue a b s
    exact hbad (by simpa [Instr.slots] using h)
  | not a b =>
    obtain ⟨_, _, hbad⟩ := notIsTheFifteenBitComplement a b s
    exact hbad (by simpa [Instr.slots] using h)
  | rmem a b =>
    obtain ⟨_, _, _, hbad⟩ := rmemReadsACell a b s
    exact hbad (by simpa [Instr.slots] using h)
  | push a =>
    obtain ⟨_, _, _, hbad⟩ := pushAppendsItsValue a s
    exact hbad (by simpa [Instr.slots] using h)
  | jmp a =>
    obtain ⟨_, _, hbad⟩ := jmpGoesToItsTarget a s
    exact hbad (by simpa [Instr.slots] using h)
  | call a =>
    obtain ⟨_, _, _, _, hbad⟩ := callPushesTheReturnAddress a s
    exact hbad (by simpa [Instr.slots] using h)
  | out a =>
    obtain ⟨_, _, hbad⟩ := outEmitsItsValue a s
    exact hbad (by simpa [Instr.slots] using h)
  | pop a =>
    obtain ⟨_, _, _, hbad⟩ := popMovesTheTopToItsRegister a s
    exact hbad (by simpa [Instr.slots] using h)
  | inp a =>
    obtain ⟨_, _, _, _, hbad⟩ := inConsumesOneCode a s
    exact hbad (by simpa [Instr.slots] using h)

/-- A cause of a fault raises it, so that no two causes of different kinds meet (R210). -/
theorem FaultCause.exec_eq {k : FaultKind} (h : FaultCause i s k) : exec i s = .next (s.raised k) := by
  cases h with
  | operand p hp hbad => exact exec_of_bad_slot ⟨p, hp, hbad⟩
  | returnAddress a t hi ht hpc =>
    subst hi
    obtain ⟨_, _, _, hpast, _⟩ := callPushesTheReturnAddress a s
    exact hpast t ht hpc
  | popEmpty r hi hs =>
    subst hi
    obtain ⟨_, _, hempty, _⟩ := popMovesTheTopToItsRegister (.reg r) s
    exact hempty r rfl hs
  | retEmpty hi hs =>
    subst hi
    obtain ⟨_, hret⟩ := retPopsThePc
    obtain ⟨_, hempty⟩ := hret s
    exact hempty hs
  | divisor r b c vb vc hi hb hc hz =>
    subst hi
    exact binaryOp_of_refused hb hc (if_pos hz) r
  | word r b addr hi hb hv =>
    subst hi
    obtain ⟨_, _, hbig, _⟩ := rmemReadsACell (.reg r) b s
    exact hbig r addr rfl hb hv
  | pushFull a v hi hv hfull =>
    subst hi
    obtain ⟨_, _, hover, _⟩ := pushAppendsItsValue a s
    exact hover v hv hfull
  | callFull a t hi ht hpc hfull =>
    subst hi
    obtain ⟨_, _, hover, _⟩ := callPushesTheReturnAddress a s
    exact hover t ht hpc hfull

end

/-! ### A fault is raised for its causes only (R201 to R208) -/

section
variable {s : State} {k : FaultKind} (hrun : s.status = .running)
include hrun

/-- A running instruction takes a fault, other than for the end of the input, exactly where it has a cause. -/
theorem exec_eq_raised_iff (i : Instr) (hk : k ≠ .inputExhausted) :
    exec i s = .next (s.raised k) ↔ FaultCause i s k := by
  refine ⟨fun h => ?_, FaultCause.exec_eq⟩
  rcases exec_fault_cases i s with ⟨t, e, _, hst⟩ | ⟨k', hcause, e⟩ | ⟨_, e⟩ <;>
    have ht := Host.Outcome.next.inj (h.symm.trans e)
  · simp [← ht, hrun] at hst
  · obtain rfl : k = k' := by simpa using congrArg State.faultKind ht
    exact hcause
  · exact absurd (by simpa using congrArg State.faultKind ht) hk

/-- A step takes a fault, other than for the input's end, in its fetch or for a cause of the fetched instruction. -/
theorem step_eq_raised_iff (hk : k ≠ .inputExhausted) :
    step s = .next (s.raised k) ↔
      s.fetchInstr = .error k ∨ ∃ i, s.fetchInstr = .ok i ∧ FaultCause i s k := by
  cases hf : s.fetchInstr with
  | error k' =>
    rw [step_of_fetch_fault hrun hf]
    simp [State.raised]
  | ok i =>
    rw [step_of_fetched hrun hf, exec_eq_raised_iff hrun i hk]
    simp

/-- A fault that no fetch takes is raised exactly for a cause of the fetched instruction. -/
theorem step_eq_raised_iff_cause (hk : k ∉ [.invalidOpcode, .invalidAddress, .inputExhausted]) :
    step s = .next (s.raised k) ↔ ∃ i, s.fetchInstr = .ok i ∧ FaultCause i s k := by
  simp only [List.mem_cons, List.not_mem_nil, or_false, not_or] at hk
  obtain ⟨hopcode, haddress, hinput⟩ := hk
  refine (step_eq_raised_iff hrun hinput).trans (or_iff_right fun hf => ?_)
  exact (State.kind_of_fetchInstr_error hf).elim hopcode haddress

end

/-- A value slot that is not bad resolves (R75). -/
theorem exists_resolve_of_not_badValue {a : Operand} (h : ¬ badValue a) (s : State) : ∃ v, s.resolve a = .ok v :=
  (s.resolve_cases a).resolve_right fun e => h ((badValue_iff s a).mpr e)

/-- Settles O12: only a fetch raises InvalidOpcode. -/
theorem invalidOpcodeArisesExactly : Obligations.InvalidOpcodeArisesExactly := by
  refine fun s hrun => (step_eq_raised_iff hrun (by decide)).trans ?_
  rw [State.fetchInstr_eq_invalidOpcode_iff]
  exact or_iff_left fun ⟨_, _, hcause⟩ => nomatch hcause

/-- Settles O13: a bad slot is the one cause of InvalidOperand. -/
theorem invalidOperandArisesExactly : Obligations.InvalidOperandArisesExactly := by
  refine fun s hrun => (step_eq_raised_iff_cause hrun (by decide)).trans ⟨?_, ?_⟩
  · rintro ⟨i, hf, hcause⟩
    cases hcause with
    | operand p hp hbad => exact ⟨i, hf, p, hp, hbad⟩
  · rintro ⟨i, hf, p, hp, hbad⟩
    exact ⟨i, hf, .operand p hp hbad⟩

/-- Settles O14: the first two cases are the fetch's; the third is the return address of a `call`, which is fetched at
32766 at most. -/
theorem invalidAddressArisesExactly : Obligations.InvalidAddressArisesExactly := by
  refine fun s hrun => (step_eq_raised_iff hrun (by decide)).trans ?_
  rw [State.fetchInstr_eq_invalidAddress_iff, or_assoc]
  refine or_congr_right (or_congr_right ⟨?_, ?_⟩)
  · rintro ⟨i, hf, hcause⟩
    cases hcause with
    | returnAddress a t hi ht hpast =>
      subst hi
      have hfit : s.pc + 2 ≤ 32768 := State.pc_add_length_le hf
      exact ⟨by omega, a, hf, not_badValue_of_resolve ht⟩
  · rintro ⟨hpc, a, hf, hlegal⟩
    obtain ⟨t, ht⟩ := exists_resolve_of_not_badValue hlegal s
    exact ⟨_, hf, .returnAddress a t rfl ht (by omega)⟩

/-- Settles O15: an empty stack at a `ret` or a legal `pop` are the two causes of StackUnderflow. -/
theorem stackUnderflowArisesExactly : Obligations.StackUnderflowArisesExactly := by
  refine fun s hrun => (step_eq_raised_iff_cause hrun (by decide)).trans ⟨?_, ?_⟩
  · rintro ⟨i, hf, hcause⟩
    cases hcause with
    | popEmpty r hi hs => exact ⟨hs, .inr ⟨r, hi ▸ hf⟩⟩
    | retEmpty hi hs => exact ⟨hs, .inl (hi ▸ hf)⟩
  · rintro ⟨hs, hf | ⟨r, hf⟩⟩
    · exact ⟨_, hf, .retEmpty rfl hs⟩
    · exact ⟨_, hf, .popEmpty r rfl hs⟩

/-- Settles O16: a legal `mod` whose divisor resolves to 0 is the one cause of DivideByZero. -/
theorem divideByZeroArisesExactly : Obligations.DivideByZeroArisesExactly := by
  refine fun s hrun => (step_eq_raised_iff_cause hrun (by decide)).trans ⟨?_, ?_⟩
  · rintro ⟨i, hf, hcause⟩
    cases hcause with
    | divisor r b c vb vc hi hb hc hz =>
      obtain rfl : vc = 0 := BitVec.eq_of_toNat_eq hz
      exact ⟨r, b, c, vb, hi ▸ hf, hb, hc⟩
  · rintro ⟨r, b, c, vb, hf, hb, hc⟩
    exact ⟨_, hf, .divisor r b c vb 0 rfl hb hc rfl⟩

/-- Settles O17: no cause and no fetch raises InputExhausted, so an `in` answered by End does. -/
theorem inputExhaustedArisesExactly : Obligations.InputExhaustedArisesExactly := by
  refine fun s hrun => ⟨fun h => ?_, fun ⟨r, hf, hcode, hend⟩ => ?_⟩
  · rcases step_cases h with ⟨_, e⟩ | ⟨k, _, hf, e⟩ | ⟨i, _, hf, he⟩
    · cases hrun.symm.trans (congrArg State.status e).symm
    · obtain rfl : .inputExhausted = k := by simpa using congrArg State.faultKind e
      simpa using State.kind_of_fetchInstr_error hf
    · rcases exec_fault_cases i s with ⟨t, e, _, hst⟩ | ⟨k, hcause, e⟩ | ⟨⟨r, rfl, hcode, hend⟩, _⟩
      · obtain rfl := Host.Outcome.next.inj (he.symm.trans e)
        simp [hrun] at hst
      · obtain rfl : .inputExhausted = k := by
          simpa using congrArg State.faultKind (Host.Outcome.next.inj (he.symm.trans e))
        cases hcause
      · exact ⟨r, hf, hcode, hend⟩
  · obtain ⟨_, _, hexhausted, _⟩ := inConsumesOneCode (.reg r) s
    exact (step_of_fetched hrun hf).trans (hexhausted r rfl hcode hend)

/-- Settles O18: a legal `rmem` of a cell that is no Word is the one cause of InvalidWord. -/
theorem invalidWordArisesExactly : Obligations.InvalidWordArisesExactly := by
  refine fun s hrun => (step_eq_raised_iff_cause hrun (by decide)).trans ⟨?_, ?_⟩
  · rintro ⟨i, hf, hcause⟩
    cases hcause with
    | word r b addr hi hb hv => exact ⟨r, b, addr, hi ▸ hf, hb, hv⟩
  · rintro ⟨r, b, addr, hf, hb, hv⟩
    exact ⟨_, hf, .word r b addr rfl hb hv⟩

/-- Settles O19: a full stack at a legal `push` or `call` are the two causes of StackOverflow. -/
theorem stackOverflowArisesExactly : Obligations.StackOverflowArisesExactly := by
  refine fun s hrun => (step_eq_raised_iff_cause hrun (by decide)).trans ⟨?_, ?_⟩
  · rintro ⟨i, hf, hcause⟩
    cases hcause with
    | pushFull a v hi hv hfull => exact ⟨hfull, a, not_badValue_of_resolve hv, .inl (hi ▸ hf)⟩
    | callFull a t hi ht hpc hfull => exact ⟨hfull, a, not_badValue_of_resolve ht, .inr ⟨hi ▸ hf, hpc⟩⟩
  · rintro ⟨hfull, a, hlegal, hf⟩
    obtain ⟨v, hv⟩ := exists_resolve_of_not_badValue hlegal s
    rcases hf with hf | ⟨hf, hpc⟩
    · exact ⟨_, hf, .pushFull a v rfl hv hfull⟩
    · exact ⟨_, hf, .callFull a v rfl hv hpc hfull⟩

end Sys2Proof.Machine
end

section
/-! PROOFS of the statements of spec/70_reset_and_hazards.md: the state after reset (R240), what a launch places and
refuses (R241 to R243), and that every state of a run meets the invariant. -/

namespace Sys2Proof.Machine

/-! ### Reset (R240) -/

/-- The state after reset, whatever it is constructed with, meets the invariant. -/
theorem construct_inv {cap : StackCapacity} (hcap : StackCapacity.positive cap) (tr du : Bool) :
    (State.construct cap tr du).Inv where
  memCanonical := construct_mem_wf cap tr du
  pcInRange := Nat.zero_le _
  faultKindIffFaulted := by simp
  capacityPositive := hcap
  stackWithinCapacity := by cases cap <;> simp [StackCapacity.allows]
  inPosInRange := Nat.zero_le _
  waitsAtIn := by simp

/-- Settles O49: an unbounded capacity is positive. -/
theorem resetMeetsTheInvariant : Obligations.ResetMeetsTheInvariant :=
  ⟨construct_inv (cap := .unbounded) trivial false false, fun _ tr du hcap => construct_inv hcap tr du⟩

theorem construct_reg_eq_zero (cap : StackCapacity) (tr du : Bool) (i : RegIndex) :
    (State.construct cap tr du).regs[i] = 0 :=
  Vector.getElem_replicate i.isLt

/-- Settles O51: every field has its value by construction, each register as one of eight zeros. -/
theorem resetGivesTheTableValues : Obligations.ResetGivesTheTableValues := by
  refine ⟨State.reset_eq_construct, ?_⟩
  rintro cap tr du s rfl
  exact ⟨rfl, construct_reg_eq_zero cap tr du, rfl, rfl, rfl, fun _ => rfl, rfl, rfl, rfl, rfl, rfl, rfl, rfl, rfl⟩

/-! ### Load and launch (R241 to R243) -/

/-- The state that the image of a launch is loaded into: reset, the answers the host has ready, the presets in order. -/
def Launch.beforeLoad (l : Launch) : State :=
  { State.construct l.capacity l.traceEn l.dumpEn with
    inCodes := l.input
    inEnd := l.inputEnds
    regs := l.presets.foldl (fun regs p => regs.set p.1.val p.2) (Vector.replicate 8 0) }

/-- A launch is a load after reset and the presets (R243). -/
theorem launch_eq_load (l : Launch) : launch l = load l.image l.beforeLoad := by
  rw [launch, foldl_preset]
  simp only [regSet_index]
  rfl

section
variable {words : List Nat}

/-- An image whose words are all Cells is those cells. -/
theorem cellsOfImage_of_le (h : ∀ w ∈ words, w ≤ 65535) : cellsOfImage words = some (words.map (BitVec.ofNat 16)) := by
  simpa [cellsOfImage] using h

/-- An image with a word that is no Cell has no cells. -/
theorem cellsOfImage_of_gt (h : ∃ w ∈ words, 65535 < w) : cellsOfImage words = none := by
  simpa [cellsOfImage] using h

/-- A loaded cell holds its image word (R241). -/
theorem cellAt_load_of_lt (hlen : words.length ≤ 32768) (hle : ∀ w ∈ words, w ≤ 65535) (a : Nat)
    (h : a < words.length) :
    ((storeCells 0 (words.map (BitVec.ofNat 16)) []).cellAt a).toNat = words[a] := by
  have hw : words[a] ≤ 65535 := hle _ (List.getElem_mem h)
  rw [Memory.cellAt_storeCells _ _ _ _ (by simp only [Config.memWords]; omega)]
  simp only [Nat.zero_le, if_true, Nat.sub_zero, List.getElem?_map, List.getElem?_eq_getElem h, Option.map_some,
    Option.getD_some, BitVec.toNat_ofNat]
  omega

/-- A cell beyond the image keeps its reset content (R32, R241). -/
theorem cellAt_load_of_ge {a : Nat} (h : words.length ≤ a) (ha : a ≤ 32767) :
    (storeCells 0 (words.map (BitVec.ofNat 16)) []).cellAt a = 0 := by
  rw [Memory.cellAt_storeCells _ _ _ _ (by simp only [Config.memWords]; omega)]
  simp [h, unloadedCell]

end

/-- Settles O52: a launch is a load into the state that the presets leave, and a load has three outcomes. -/
theorem launchPlacesTheImage : Obligations.LaunchPlacesTheImage := by
  intro l
  rw [launch_eq_load]
  refine ⟨fun hlen hle => ?_, fun hlong => if_pos hlong, fun hlen hbig => ?_⟩
  · refine ⟨{ l.beforeLoad with mem := storeCells 0 (l.image.map (BitVec.ofNat 16)) [] }, ?_,
      fun a h => cellAt_load_of_lt hlen hle a h, fun a h ha => cellAt_load_of_ge h ha, rfl⟩
    rw [load, if_neg hlen.not_gt, cellsOfImage_of_le hle]
    rfl
  · rw [load, if_neg hlen.not_gt, cellsOfImage_of_gt hbig]

/-! ### Every state of a run meets the invariant (R6, R7, R25, R28, R34, R38, R39) -/

/-- Whatever registers, canonical memory and answers the host gives, the invariant holds where no request is outstanding
then. -/
theorem State.Inv.of_host {s : State} (hs : s.Inv) (regs : Vector Word 8) {mem : Memory} (hmem : mem.wf = true)
    {codes : List Word} (hcodes : s.inPos ≤ codes.length) (ends : Bool) :
    { s with regs := regs, mem := mem, inCodes := codes, inEnd := ends, inputWait := false }.Inv where
  __ := hs
  memCanonical := hmem
  inPosInRange := hcodes
  waitsAtIn := by simp

/-- A launch meets the invariant, whatever its image, its presets and the answers ready for it. -/
theorem launch_inv {l : Launch} {s : State} (hcap : StackCapacity.positive l.capacity) (h : launch l = .next s) :
    s.Inv := by
  rw [launch_eq_load] at h
  rcases load_cases l.image l.beforeLoad with ⟨cells, _, _, e⟩ | ⟨_, e⟩ | ⟨_, _, e⟩ <;> cases h.symm.trans e
  exact (construct_inv hcap l.traceEn l.dumpEn).of_host _ (storeCells_wf cells 0 rfl) (Nat.zero_le _) l.inputEnds

/-- The host has an answer while a code is left, and when it answers End. -/
theorem State.inputAnswer_ne_none {s : State} (h : s.inPos < s.inCodes.length ∨ s.inEnd = true) :
    s.inputAnswer ≠ none := by
  rcases s.inputAnswer_cases with ⟨w, _, e⟩ | ⟨_, _, e⟩ | ⟨hcode, hend, _⟩
  · simp [e]
  · simp [e]
  · have := List.getElem?_eq_none_iff.mp hcode
    rcases h with hlt | hends
    · omega
    · cases hend.symm.trans hends

/-- An `in` that is answered ends its wait, so whether one was outstanding makes no difference (R224). -/
theorem inputInto_endInputWait {s : State} (r : RegIndex) (h : s.inputAnswer ≠ none) :
    inputInto r s.endInputWait = inputInto r s := by
  have hsame : s.endInputWait.inputAnswer = s.inputAnswer := rfl
  cases ha : s.inputAnswer with
  | none => exact absurd ha h
  | some answer =>
    cases answer with
    | char w => rw [inputInto_of_char r ha, inputInto_of_char r (hsame.trans ha)]; rfl
    | endOfInput => rw [inputInto_of_end r ha, inputInto_of_end r (hsame.trans ha)]; rfl

/-- The state with other answers from the host (log 4). -/
def State.withAnswers (codes : List Word) (ends : Bool) (s : State) : State :=
  { s with inCodes := codes, inEnd := ends }

/-- The host's answer to a held `in` keeps the invariant: the `in` runs as if it had found the answer ready. -/
theorem State.Inv.of_answer {s t : State} (hs : s.Inv) {codes : List Word} {ends : Bool}
    (hcodes : s.inPos ≤ codes.length) (hanswer : s.inPos < codes.length ∨ ends = true)
    (h : answerRequest s (s.withAnswers codes ends) = .next t) : t.Inv := by
  rcases answerRequest_cases s (s.withAnswers codes ends) with ⟨hreq, _⟩ | ⟨_, e⟩
  · obtain ⟨hwait, hrun⟩ := s.inputRequest_iff.mp hreq
    obtain ⟨_, _, r, hf⟩ := hs.waitsAtIn hwait
    have hin : inputInto r (s.withAnswers codes ends).endInputWait = .next t := calc
      _ = inputInto r (s.withAnswers codes ends) := inputInto_endInputWait r (State.inputAnswer_ne_none hanswer)
      _ = answerRequest s.holdInput (s.withAnswers codes ends) :=
        (answerRequest_of_held_in (answered := s.withAnswers codes ends) hrun hf rfl rfl rfl).symm
      _ = .next t := by rw [State.holdInput_of_wait hwait, h]
    have hfetch : (s.withAnswers codes ends).endInputWait.fetchInstr = s.fetchInstr := State.fetchInstr_congr rfl rfl
    exact (hs.of_host s.regs hs.memCanonical hcodes ends).of_exec hrun rfl (hfetch.trans hf) hin
  · cases h.symm.trans e

/-- Settles O50, by induction on how the state is reached. -/
theorem everyReachableStateMeetsTheInvariant : Obligations.EveryReachableStateMeetsTheInvariant := by
  intro s hs
  induction hs with
  | launched l s hcap h => exact launch_inv hcap h
  | stepped s t _ h ih => exact everyStepKeepsTheInvariant s t ih h
  | answered w s t _ h ih =>
    have hlt : s.inPos < (s.inCodes ++ [w]).length := by simpa using Nat.lt_succ_of_le ih.inPosInRange
    exact ih.of_answer hlt.le (.inl hlt) h
  | inputEnded s t _ h ih => exact ih.of_answer ih.inPosInRange (.inr rfl) h

end Sys2Proof.Machine
end
